-- ==== Sys2Proof/Word.lean ====
section
/-! DEFINITION. The word types of the core and the plainest conversions between them. -/

namespace Sys2Proof

/-- A register value, a memory cell, an opcode or an operand byte (R9, R22, R38). -/
abbrev Byte := BitVec 8

/-- A value of PC, FAULT_PC or FAULT_INFO, and an address before its range check (R13, R27, R36). -/
abbrev Word9 := BitVec 9

/-- A register index 0 to 7, as `RegIndex` answers it (R8, R19, R21). -/
abbrev RegIdx := Fin 8

/-- `zext_9` of a byte (R18). -/
abbrev zext9 (b : Byte) : Word9 := b.setWidth 9

/-- The operand byte that names register R<r> (R21, R63). -/
abbrev regByte (r : RegIdx) : Byte := BitVec.ofNat 8 r.val

end Sys2Proof
end

