-- ==== Sys2Proof/Syntax.lean ====
section
/-! DEFINITION. The 13 instructions of 30_encoding.md R64, one constructor per row of spec/opcode_table.json.
An operand is the whole operand byte, as fetched (R63): the check of a register byte is a step of its own,
after the decode (R79), so a term may hold a register byte above 7 (log 9). -/

namespace Sys2Proof

/-- An instruction with its operand bytes in the order they lie in memory (R59 to R62). -/
inductive Instr where
  /-- R86: `LDI Ra,imm`. -/
  | ldi (ra imm : Byte)
  /-- R87: `PRN Ra`. -/
  | prn (ra : Byte)
  /-- R104: `HLT`. -/
  | hlt
  /-- R98: `PUSH Ra`. -/
  | push (ra : Byte)
  /-- R99: `POP Ra`. -/
  | pop (ra : Byte)
  /-- R93: `MUL Ra,Rb`. -/
  | mul (ra rb : Byte)
  /-- R94: `DIV Ra,Rb`. -/
  | div (ra rb : Byte)
  /-- R91: `ADD Ra,Rb`. -/
  | add (ra rb : Byte)
  /-- R92: `SUB Ra,Rb`. -/
  | sub (ra rb : Byte)
  /-- R95: `CMP Ra,Rb`. -/
  | cmp (ra rb : Byte)
  /-- R102: `JEQ Ra`. -/
  | jeq (ra : Byte)
  /-- R103: `JNE Ra`. -/
  | jne (ra : Byte)
  /-- R101: `JMP Ra`. -/
  | jmp (ra : Byte)
  deriving DecidableEq, Repr

/-- The register operand bytes in byte order, the ones R79 checks. The immediate of LDI is none. -/
def Instr.regBytes : Instr → List Byte
  | .ldi ra _ => [ra]
  | .prn ra => [ra]
  | .hlt => []
  | .push ra => [ra]
  | .pop ra => [ra]
  | .mul ra rb => [ra, rb]
  | .div ra rb => [ra, rb]
  | .add ra rb => [ra, rb]
  | .sub ra rb => [ra, rb]
  | .cmp ra rb => [ra, rb]
  | .jeq ra => [ra]
  | .jne ra => [ra]
  | .jmp ra => [ra]

end Sys2Proof
end

