-- ==== Sys2Proof/WellFormed.lean ====
section
/-! DEFINITION. Which instruction terms an assembler writes: every register operand byte names a register. -/

namespace Sys2Proof

/-- R25, R63: the whole byte is compared; 0 to 7 name a register and 8 to 255 do not. -/
def isRegByte (b : Byte) : Bool := decide (b.toNat ≤ 7)

/-- The register bytes are legal (R25, R67). The immediate of LDI may be any byte (R67). -/
def Instr.wellFormed (i : Instr) : Bool := i.regBytes.all isRegByte

/-- The first register byte of the instruction, in byte order, that names no register (R79, R107 item 4). -/
def Instr.badRegByte (i : Instr) : Option Byte := i.regBytes.find? (fun b => !isRegByte b)

end Sys2Proof
end

