-- ==== Sys2Proof/Decode.lean ====
section
/-! DEFINITION. Instruction encoding (30_encoding.md) and the decoder (40_fetch_decode.md R77, R78): the opcode
table, a decoder total on any bytes that rejects by name, and the encoder written from the same tables. -/

namespace Sys2Proof

/-- The format of an instruction (R59 to R62), with the constructor that takes its operand bytes. -/
inductive Shape where
  /-- R59: format Z, no operand byte. -/
  | z (i : Instr)
  /-- R60: format R, one register byte. -/
  | r (mk : Byte → Instr)
  /-- R61: format RR, two register bytes. -/
  | rr (mk : Byte → Byte → Instr)
  /-- R62: format RI, a register byte and an immediate byte. -/
  | ri (mk : Byte → Byte → Instr)

/-- The opcode map of R64: exact match of the whole byte (R66, R77), `none` for the 243 illegal bytes. -/
def shapeOf (op : Byte) : Option Shape :=
  match op with
  | 0b10000010#8 => some (.ri .ldi)
  | 0b01000111#8 => some (.r .prn)
  | 0b00000001#8 => some (.z .hlt)
  | 0b01000101#8 => some (.r .push)
  | 0b01000110#8 => some (.r .pop)
  | 0b10100010#8 => some (.rr .mul)
  | 0b10100011#8 => some (.rr .div)
  | 0b10100000#8 => some (.rr .add)
  | 0b10100001#8 => some (.rr .sub)
  | 0b10100111#8 => some (.rr .cmp)
  | 0b01010101#8 => some (.r .jeq)
  | 0b01010110#8 => some (.r .jne)
  | 0b01010100#8 => some (.r .jmp)
  | _ => none

/-- The decoder over a source of instruction bytes, `byteAt k` being the byte k places after the opcode. It asks
for the opcode first (R76), rejects an illegal one before it asks for an operand (R77), and then asks for the
operand bytes, lowest first (R78). The fetch unit gives it memory; `decode` gives it a list. -/
def decodeWith {ε : Type} (illegal : Byte → ε) (byteAt : Nat → Except ε Byte) : Except ε Instr := do
  let op ← byteAt 0
  match shapeOf op with
  | none => .error (illegal op)
  | some (.z i) => .ok i
  | some (.r mk) => do
    let ra ← byteAt 1
    .ok (mk ra)
  | some (.rr mk) => do
    let ra ← byteAt 1
    let rb ← byteAt 2
    .ok (mk ra rb)
  | some (.ri mk) => do
    let ra ← byteAt 1
    let imm ← byteAt 2
    .ok (mk ra imm)

/-- Why a list of bytes is no instruction. -/
inductive DecodeError where
  /-- R66: the first byte is none of the 13 opcodes. -/
  | illegalOpcode (op : Byte)
  /-- The list ends before byte `k` of the instruction (log 13). In a step the fetch unit's range check
  takes this place (R76, R78). -/
  | missingByte (k : Nat)
  deriving DecidableEq, Repr

/-- Byte `k` of a list of instruction bytes. -/
def listByte (bs : List Byte) (k : Nat) : Except DecodeError Byte :=
  match bs[k]? with
  | some b => .ok b
  | none => .error (.missingByte k)

/-- The opcode byte of an instruction (R64). -/
def Instr.opcode : Instr → Byte
  | .ldi _ _ => 0x82#8
  | .prn _ => 0x47#8
  | .hlt => 0x01#8
  | .push _ => 0x45#8
  | .pop _ => 0x46#8
  | .mul _ _ => 0xA2#8
  | .div _ _ => 0xA3#8
  | .add _ _ => 0xA0#8
  | .sub _ _ => 0xA1#8
  | .cmp _ _ => 0xA7#8
  | .jeq _ => 0x55#8
  | .jne _ => 0x56#8
  | .jmp _ => 0x54#8

/-- The operand bytes in memory order (R59 to R62). -/
def Instr.operandBytes : Instr → List Byte
  | .ldi ra imm => [ra, imm]
  | .prn ra => [ra]
  | .hlt => []
  | .push ra => [ra]
  | .pop ra => [ra]
  | .mul ra rb => [ra, rb]
  | .div ra rb => [ra, rb]
  | .add ra rb => [ra, rb]
  | .sub ra rb => [ra, rb]
  | .cmp ra rb => [ra, rb]
  | .jeq ra => [ra]
  | .jne ra => [ra]
  | .jmp ra => [ra]

/-- R58: the opcode byte, then the operand bytes at increasing addresses (R47). -/
def encode (i : Instr) : List Byte := i.opcode :: i.operandBytes

/-- R20, R58: the instruction length, 1 + the number of operand bytes. -/
def Instr.length (i : Instr) : Nat := 1 + i.operandBytes.length

/-- Decode the instruction at the head of a list of bytes; answer it with the rest of the list. -/
def decode (bs : List Byte) : Except DecodeError (Instr × List Byte) :=
  match decodeWith .illegalOpcode (listByte bs) with
  | .ok i => .ok (i, bs.drop i.length)
  | .error e => .error e

/-- The mnemonic of an instruction, as R64 spells it. -/
def Instr.mnemonic : Instr → List Char
  | .ldi _ _ => ['L', 'D', 'I']
  | .prn _ => ['P', 'R', 'N']
  | .hlt => ['H', 'L', 'T']
  | .push _ => ['P', 'U', 'S', 'H']
  | .pop _ => ['P', 'O', 'P']
  | .mul _ _ => ['M', 'U', 'L']
  | .div _ _ => ['D', 'I', 'V']
  | .add _ _ => ['A', 'D', 'D']
  | .sub _ _ => ['S', 'U', 'B']
  | .cmp _ _ => ['C', 'M', 'P']
  | .jeq _ => ['J', 'E', 'Q']
  | .jne _ => ['J', 'N', 'E']
  | .jmp _ => ['J', 'M', 'P']

/-- The bytes of an instruction given as one number, bit 0 being the least significant bit of the first byte:
`nbits` bits of `w`, padded with zeros to the longest instruction, 3 bytes (R14). -/
def tableBytes (nbits w : Nat) : List Byte :=
  [0, 1, 2].map fun k => BitVec.ofNat 8 (w % 2 ^ nbits / 256 ^ k)

/-- The instruction the decoder reads from a number laid out as spec/opcode_table.json numbers bits. -/
def decodeTableWord (nbits w : Nat) : Option Instr :=
  match decode (tableBytes nbits w) with
  | .ok (i, _) => some i
  | .error _ => none

end Sys2Proof
end

