-- ==== Sys2Proof/Config.lean ====
section
/-! DEFINITION. The parameters of 00_scope.md section 4. The spec leaves no value free, so no constant here
is opaque. MEM_INIT and the two stack limits are arguments of the model (R15 to R17): they stand in State. -/

namespace Sys2Proof.Config

/-- R7: `MEM_SIZE = 256`. -/
abbrev memSize : Nat := 256

/-- R10: `SP_INDEX = 7`. -/
abbrev spIndex : RegIdx := 7

/-- R11: `SP_RESET = 0xF4`. -/
abbrev spReset : Byte := 0xF4#8

/-- R26, R44: the reset value of R0 to R6. -/
abbrev regReset : Byte := 0x00#8

/-- R12: `PC_RESET = 0`. -/
abbrev pcReset : Word9 := 0#9

/-- R15: the default of `STACK_LOW_LIMIT`. -/
abbrev stackLowDefault : Byte := 0x00#8

/-- R16: the default of `STACK_HIGH_LIMIT`. -/
abbrev stackHighDefault : Byte := 0xFF#8

/-- R17, R38: what a cell holds that the host has not loaded and nothing has written. -/
abbrev blankByte : Byte := 0x00#8

end Sys2Proof.Config
end

