-- ==== Sys2Proof/Machine/State.lean ====
section
/-! DEFINITION. The state of the core as plain data (10_state.md), the reasons a step of the model could stop,
and the state after reset. -/

namespace Sys2Proof.Machine

/-- The four states of FL (R30). `FlagState.bits` (Machine/Flags.lean) gives the 3-bit layout of R31 (log 5). -/
inductive FlagState where
  | unset
  | equal
  | greater
  | less
  deriving DecidableEq, Repr

/-- The execution state STATE (R34). Its fourth 2-bit value "is never held". -/
inductive RunState where
  | running
  | halted
  | faulted
  deriving DecidableEq, Repr

/-- FAULT_CAUSE by name (R105); `FaultCause.code` (Machine/Flags.lean) gives the 3-bit codes (log 5). -/
inductive FaultCause where
  | noFault
  | addressOutOfRange
  | illegalOpcode
  | invalidRegister
  | divisionByZero
  | stackOverflow
  | stackUnderflow
  | unsupportedOperation
  deriving DecidableEq, Repr

/-- The 256-byte memory (R38) as the list of its cells that hold something else than `Config.blankByte`, at
strictly rising addresses: `Memory.wf` (Machine/Ops.lean) is that canonical form. -/
abbrev Memory := List Host.Cell

/-- The model's own stops by fault: none. Every fault of the spec (R105) is an entry to Faulted that the spec
describes (R109), so it is a next state here, and nothing raises a fault of the model (log 10). -/
inductive Fault
  deriving DecidableEq, Repr

/-- The model's own refusals. -/
inductive Refusal where
  /-- Raised by an arm of `exec` for an instruction without a meaning; no arm of this model does. Safe. -/
  | notModelled (mnemonic : String)
  deriving DecidableEq, Repr

/-- All the state the spec gives the machine (R44), and the two stack limits (R15, R16; log 1). -/
structure State where
  /-- R0 to R7 (R21); R7 is SP (R23). -/
  regs : Vector Byte 8
  /-- PC, 0 to 256 (R27; log 6 on the values above). -/
  pc : Word9
  /-- FL (R30). -/
  fl : FlagState
  /-- STATE (R34). -/
  runState : RunState
  /-- FAULT_CAUSE (R36). -/
  faultCause : FaultCause
  /-- FAULT_PC (R36). -/
  faultPc : Word9
  /-- FAULT_INFO (R36). -/
  faultInfo : Word9
  /-- The output log, the oldest value first (R43). -/
  output : List Byte
  /-- The attached memory (R38). -/
  mem : Memory
  /-- STACK_LOW_LIMIT, a constant of the run (R15). -/
  stackLow : Byte
  /-- STACK_HIGH_LIMIT, a constant of the run (R16). -/
  stackHigh : Byte
  deriving DecidableEq, Repr

/-- R44, R120: the machine after reset, with no program byte loaded into MEM_INIT (R17) and the default stack
limits (R15, R16). `State.boot` (Machine/Boot.lean) is the same with a program (log 3). -/
def State.reset : State where
  regs := #v[Config.regReset, Config.regReset, Config.regReset, Config.regReset,
    Config.regReset, Config.regReset, Config.regReset, Config.spReset]
  pc := Config.pcReset
  fl := .unset
  runState := .running
  faultCause := .noFault
  faultPc := 0#9
  faultInfo := 0#9
  output := []
  mem := []
  stackLow := Config.stackLowDefault
  stackHigh := Config.stackHighDefault

end Sys2Proof.Machine
end

