-- ==== Sys2Proof/Machine/Ops.lean ====
section
/-! DEFINITION. The named operations over memory and registers, what an instruction's rule produces (R80), the
commit of a step (R82), and fault entry (R109). The pseudocode primitives are those of R19. -/

namespace Sys2Proof.Machine

/-! ### Memory (R38, R45, R52) -/

/-- The byte an address holds: its cell's, or `Config.blankByte` where no cell is listed (R39). -/
def Memory.read : Memory → Nat → Byte
  | [], _ => Config.blankByte
  | (a, v) :: m, k => if a = k then v else Memory.read m k

/-- Store a byte, keeping the canonical form. -/
def Memory.write : Memory → Nat → Byte → Memory
  | [], k, v => if v = Config.blankByte then [] else [(k, v)]
  | (a, w) :: m, k, v =>
    if k < a then (if v = Config.blankByte then (a, w) :: m else (k, v) :: (a, w) :: m)
    else if k = a then (if v = Config.blankByte then m else (k, v) :: m)
    else (a, w) :: Memory.write m k v

/-- The canonical form from address `lo` up: addresses strictly rising, below 256, no blank cell. -/
def Memory.wfFrom : Nat → Memory → Bool
  | _, [] => true
  | lo, (a, v) :: m =>
    decide (lo ≤ a) && decide (a < Config.memSize) && decide (v ≠ Config.blankByte) && Memory.wfFrom (a + 1) m

/-- The canonical form of memory. -/
def Memory.wf (m : Memory) : Bool := Memory.wfFrom 0 m

/-- Store bytes at consecutive addresses from `a`, those that lie below 256. -/
def Memory.writeBytes : Memory → Nat → List Byte → Memory
  | m, _, [] => m
  | m, a, b :: bs =>
    Memory.writeBytes (if a < Config.memSize then Memory.write m a b else m) (a + 1) bs

/-- The bytes at `n` consecutive addresses from `a`. -/
def Memory.bytesFrom (m : Memory) (a n : Nat) : List Byte :=
  (List.range n).map fun k => Memory.read m (a + k)

/-! ### Registers (R19, R21, R22) -/

/-- `x[i]`. -/
def State.reg (s : State) (r : RegIdx) : Byte := s.regs[r.val]

/-- `x[7]`, the stack pointer (R23). -/
def State.sp (s : State) : Byte := s.reg Config.spIndex

/-- `x[i] <- v`; the type of `v` is the reduction modulo 256 (R22). -/
def State.setReg (s : State) (r : RegIdx) (v : Byte) : State := { s with regs := s.regs.set r v }

/-- `MemWrite(a, 1, v)`. -/
def State.setMem (s : State) (a : Nat) (v : Byte) : State := { s with mem := s.mem.write a v }

/-- `FL <- f`. -/
def State.setFl (s : State) (f : FlagState) : State := { s with fl := f }

/-- `Emit(v)`: append to the output log (R88). -/
def State.emit (s : State) (v : Byte) : State := { s with output := s.output ++ [v] }

/-- `state <- S`. -/
def State.setRunState (s : State) (r : RunState) : State := { s with runState := r }

/-- `pc <- target`. -/
def State.setPc (s : State) (p : Word9) : State := { s with pc := p }

/-! ### Faults (R105, R109) -/

/-- What a `raise` names: a fault of R105 with the value its detail is made from. -/
inductive Raise where
  | addressOutOfRange (addr : Word9)
  | illegalOpcode (op : Byte)
  | invalidRegister (b : Byte)
  | divisionByZero (rb : RegIdx)
  | stackOverflow (sp : Byte)
  | stackUnderflow (sp : Byte)
  | unsupportedOperation
  deriving DecidableEq, Repr

/-- The FAULT_CAUSE column of R105. -/
def Raise.cause : Raise → FaultCause
  | .addressOutOfRange _ => .addressOutOfRange
  | .illegalOpcode _ => .illegalOpcode
  | .invalidRegister _ => .invalidRegister
  | .divisionByZero _ => .divisionByZero
  | .stackOverflow _ => .stackOverflow
  | .stackUnderflow _ => .stackUnderflow
  | .unsupportedOperation => .unsupportedOperation

/-- The FAULT_INFO column of R105. -/
def Raise.info : Raise → Word9
  | .addressOutOfRange a => a
  | .illegalOpcode op => zext9 op
  | .invalidRegister b => zext9 b
  | .divisionByZero rb => BitVec.ofNat 9 rb.val
  | .stackOverflow sp => zext9 sp
  | .stackUnderflow sp => zext9 sp
  | .unsupportedOperation => 0#9

/-- Fault entry (R109): the three fault registers and STATE are written and nothing else is. PC holds the
instruction's address during its step (R28), so FAULT_PC is PC. There is no return from a fault (R111): only
reset leaves Faulted (`State.assertReset`). -/
def takeFault (r : Raise) (s : State) : State :=
  { s with runState := .faulted, faultCause := r.cause, faultPc := s.pc, faultInfo := r.info }

/-! ### Memory accesses with their range check (R40, R45, R48) -/

/-- The check before the port is used: the port's address, or AddressOutOfRange with the address (R40). -/
def checkRange (a : Word9) : Except Raise Nat :=
  if a.toNat ≤ 255 then .ok a.toNat else .error (.addressOutOfRange a)

/-- `MemRead(addr, 1)` behind its range check. -/
def memRead (s : State) (a : Word9) : Except Raise Byte := do
  let p ← checkRange a
  .ok (s.mem.read p)

/-! ### What a rule produces, and the end of a step (R80, R82) -/

/-- One write of a step (the list in R82), the PC write apart. -/
inductive Write where
  | reg (r : RegIdx) (v : Byte)
  | mem (a : Nat) (v : Byte)
  | fl (f : FlagState)
  | emit (v : Byte)
  | runState (r : RunState)
  deriving DecidableEq, Repr

/-- "It produces a list of writes and a next-PC value" (R80). -/
structure Effect where
  writes : List Write
  nextPc : Word9
  deriving DecidableEq, Repr

/-- One write takes effect. -/
def applyWrite (s : State) : Write → State
  | .reg r v => s.setReg r v
  | .mem a v => s.setMem a v
  | .fl f => s.setFl f
  | .emit v => s.emit v
  | .runState r => s.setRunState r

/-- Commit (R82): the writes in the order listed, a later write of one register replacing an earlier, and PC. -/
def commit (e : Effect) (s : State) : State := (e.writes.foldl applyWrite s).setPc e.nextPc

/-- The end of a step (R82): the commit, or fault entry with none of the instruction's writes. -/
def finish (s : State) (r : Except Raise Effect) : Host.Outcome State Fault Refusal :=
  match r with
  | .ok e => .next (commit e s)
  | .error f => .next (takeFault f s)

/-- Sequential next PC, `a + L` (R83). PC holds `a` during the step (R28). -/
def State.pcPlus (s : State) (len : Nat) : Word9 := s.pc + BitVec.ofNat 9 len

end Sys2Proof.Machine
end

