-- ==== Sys2Proof/Machine/Flags.lean ====
section
/-! DEFINITION. The condition flags (10_state.md section 3), and the numbers by which the host reads STATE and
FAULT_CAUSE. -/

namespace Sys2Proof.Machine

/-- FL as its 3 bits: E is bit 0, G is bit 1, L is bit 2 (R31). -/
def FlagState.bits : FlagState → BitVec 3
  | .unset => 0b000#3
  | .equal => 0b001#3
  | .greater => 0b010#3
  | .less => 0b100#3

/-- Bit E of FL, the only bit JEQ and JNE read (R32). -/
def FlagState.e (f : FlagState) : Bool := f.bits.getLsbD 0

/-- Bit G of FL. -/
def FlagState.g (f : FlagState) : Bool := f.bits.getLsbD 1

/-- Bit L of FL. -/
def FlagState.l (f : FlagState) : Bool := f.bits.getLsbD 2

/-- The FL value CMP produces (R95): an unsigned comparison of the two register values. -/
def compareFlags (a b : Byte) : FlagState :=
  if a = b then .equal else if a.toNat < b.toNat then .less else .greater

/-- STATE as its 2 bits (R34). -/
def RunState.code : RunState → BitVec 2
  | .running => 0#2
  | .halted => 1#2
  | .faulted => 2#2

/-- FAULT_CAUSE as its 3 bits (R105). -/
def FaultCause.code : FaultCause → BitVec 3
  | .noFault => 0#3
  | .addressOutOfRange => 1#3
  | .illegalOpcode => 2#3
  | .invalidRegister => 3#3
  | .divisionByZero => 4#3
  | .stackOverflow => 5#3
  | .stackUnderflow => 6#3
  | .unsupportedOperation => 7#3

end Sys2Proof.Machine
end

