-- ==== Sys2Proof/Machine/Operands.lean ====
section
/-! DEFINITION. The operand forms: a register byte and a pair of register bytes, checked in byte order. The
immediate of LDI is its byte, used as is (R63). -/

namespace Sys2Proof.Machine

/-- `RegIndex(b)` (R19, R25): the whole byte is compared; above 7 it raises InvalidRegister with the byte. -/
def regIndex (b : Byte) : Except Raise RegIdx :=
  if h : b.toNat < 8 then .ok ⟨b.toNat, h⟩ else .error (.invalidRegister b)

/-- The two register bytes of format RR, byte 1 checked before byte 2 (R79). -/
def regPair (ra rb : Byte) : Except Raise (RegIdx × RegIdx) := do
  let a ← regIndex ra
  let b ← regIndex rb
  .ok (a, b)

end Sys2Proof.Machine
end

