-- ==== Sys2Proof/Machine/Alu.lean ====
section
/-! DEFINITION. The ALU (40_fetch_decode.md R81) and the five instructions that use it (42_alu.md). -/

namespace Sys2Proof.Machine

/-- The ALU's operation selector (R81). -/
inductive AluSelector where
  | add
  | sub
  | mul
  | div
  | cmp
  /-- A selector outside the five; no instruction sets it (R81, D24; log 8). -/
  | other
  deriving DecidableEq, Repr

/-- What the ALU answers (R81): a result, an FL value, or one of its two faults. -/
inductive AluOutput where
  | result (v : Byte)
  | flags (f : FlagState)
  | divisionByZero
  | unsupportedOperation
  deriving DecidableEq, Repr

/-- The ALU on its two inputs (R81). The results are those of R89: unsigned and reduced modulo 256. -/
def alu (sel : AluSelector) (a b : Byte) : AluOutput :=
  match sel with
  | .add => .result (a + b)
  | .sub => .result (a - b)
  | .mul => .result (a * b)
  | .div => if b = 0#8 then .divisionByZero else .result (a / b)
  | .cmp => .flags (compareFlags a b)
  | .other => .unsupportedOperation

/-- The rule the five ALU instructions share (R91 to R95): check both register bytes, run the ALU on the two
register values, write the result to Ra or the flags to FL, and advance PC by 3 (R90). -/
def aluEffect (sel : AluSelector) (ra rb : Byte) (s : State) : Except Raise Effect := do
  let (a, b) ← regPair ra rb
  match alu sel (s.reg a) (s.reg b) with
  | .result v => .ok ⟨[.reg a v], s.pcPlus 3⟩
  | .flags f => .ok ⟨[.fl f], s.pcPlus 3⟩
  | .divisionByZero => .error (.divisionByZero b)
  | .unsupportedOperation => .error .unsupportedOperation

/-- R91. -/
def execAdd (ra rb : Byte) (s : State) : Host.Outcome State Fault Refusal :=
  finish s (aluEffect .add ra rb s)

/-- R92. -/
def execSub (ra rb : Byte) (s : State) : Host.Outcome State Fault Refusal :=
  finish s (aluEffect .sub ra rb s)

/-- R93. -/
def execMul (ra rb : Byte) (s : State) : Host.Outcome State Fault Refusal :=
  finish s (aluEffect .mul ra rb s)

/-- R94. -/
def execDiv (ra rb : Byte) (s : State) : Host.Outcome State Fault Refusal :=
  finish s (aluEffect .div ra rb s)

/-- R95. -/
def execCmp (ra rb : Byte) (s : State) : Host.Outcome State Fault Refusal :=
  finish s (aluEffect .cmp ra rb s)

end Sys2Proof.Machine
end

