-- ==== Sys2Proof/Machine/Branch.lean ====
section
/-! DEFINITION. JMP, JEQ and JNE (44_branch.md): register-indirect, absolute (R100). -/

namespace Sys2Proof.Machine

/-- A jump: the register byte is checked whether or not the jump is taken (R79); PC becomes the register's value
if it is taken, and advances by 2 otherwise (R83). -/
def jumpEffect (taken : Bool) (ra : Byte) (s : State) : Except Raise Effect := do
  let a ← regIndex ra
  .ok ⟨[], if taken then zext9 (s.reg a) else s.pcPlus 2⟩

/-- R101. -/
def execJmp (ra : Byte) (s : State) : Host.Outcome State Fault Refusal :=
  finish s (jumpEffect true ra s)

/-- R102: taken if bit E of FL is set. -/
def execJeq (ra : Byte) (s : State) : Host.Outcome State Fault Refusal :=
  finish s (jumpEffect s.fl.e ra s)

/-- R103: taken if bit E of FL is clear. -/
def execJne (ra : Byte) (s : State) : Host.Outcome State Fault Refusal :=
  finish s (jumpEffect (!s.fl.e) ra s)

end Sys2Proof.Machine
end

