-- ==== Sys2Proof/Machine/DataMove.lean ====
section
/-! DEFINITION. LDI and PRN (41_data_move.md). -/

namespace Sys2Proof.Machine

/-- R86: `x[ra] <- imm`. -/
def execLdi (ra imm : Byte) (s : State) : Host.Outcome State Fault Refusal :=
  finish s do
    let a ← regIndex ra
    .ok ⟨[.reg a imm], s.pcPlus 3⟩

/-- R87: `Emit(x[ra])`. -/
def execPrn (ra : Byte) (s : State) : Host.Outcome State Fault Refusal :=
  finish s do
    let a ← regIndex ra
    .ok ⟨[.emit (s.reg a)], s.pcPlus 2⟩

end Sys2Proof.Machine
end

