-- ==== Sys2Proof/Machine/Halt.lean ====
section
/-! DEFINITION. HLT (45_halt.md). -/

namespace Sys2Proof.Machine

/-- R104: STATE becomes Halted and PC stays at the HLT's address. -/
def execHlt (s : State) : Host.Outcome State Fault Refusal :=
  finish s (.ok ⟨[.runState .halted], s.pc⟩)

end Sys2Proof.Machine
end

