-- ==== Sys2Proof/Machine/Stack.lean ====
section
/-! DEFINITION. PUSH and POP (43_stack.md), the only instructions that access data memory. -/

namespace Sys2Proof.Machine

/-- The address a PUSH stores to, `SP - 1` (R48, R96). -/
def pushAddr (s : State) : Byte := s.sp - 1#8

/-- The address a POP reads, `SP` (R48, R96). -/
def popAddr (s : State) : Byte := s.sp

/-- R98: pre-decrement push. The value is read before SP changes, so PUSH R7 stores the old SP (R130). -/
def execPush (ra : Byte) (s : State) : Host.Outcome State Fault Refusal :=
  finish s do
    let a ← regIndex ra
    if s.sp.toNat ≤ s.stackLow.toNat then .error (.stackOverflow s.sp)
    else do
      let p ← checkRange (zext9 (pushAddr s))
      .ok ⟨[.mem p (s.reg a), .reg Config.spIndex (s.sp - 1#8)], s.pcPlus 2⟩

/-- R99: post-increment pop. The popped byte is written after SP, so it wins in POP R7 (R82, R130). -/
def execPop (ra : Byte) (s : State) : Host.Outcome State Fault Refusal :=
  finish s do
    let a ← regIndex ra
    if s.stackHigh.toNat ≤ s.sp.toNat then .error (.stackUnderflow s.sp)
    else do
      let v ← memRead s (zext9 (popAddr s))
      .ok ⟨[.reg Config.spIndex (s.sp + 1#8), .reg a v], s.pcPlus 2⟩

end Sys2Proof.Machine
end

