-- ==== Sys2Proof/Machine/Dispatch.lean ====
section
/-! DEFINITION. Which rule an instruction runs (R80), one arm per constructor. `exec` looks at neither STATE nor the
bytes at PC: `step` does (log 7). -/

namespace Sys2Proof.Machine

def exec (i : Instr) (s : State) : Host.Outcome State Fault Refusal :=
  match i with
  | .ldi ra imm => Sys2Proof.Machine.execLdi ra imm s
  | .prn ra => Sys2Proof.Machine.execPrn ra s
  | .hlt => Sys2Proof.Machine.execHlt s
  | .push ra => Sys2Proof.Machine.execPush ra s
  | .pop ra => Sys2Proof.Machine.execPop ra s
  | .mul ra rb => Sys2Proof.Machine.execMul ra rb s
  | .div ra rb => Sys2Proof.Machine.execDiv ra rb s
  | .add ra rb => Sys2Proof.Machine.execAdd ra rb s
  | .sub ra rb => Sys2Proof.Machine.execSub ra rb s
  | .cmp ra rb => Sys2Proof.Machine.execCmp ra rb s
  | .jeq ra => Sys2Proof.Machine.execJeq ra s
  | .jne ra => Sys2Proof.Machine.execJne ra s
  | .jmp ra => Sys2Proof.Machine.execJmp ra s

end Sys2Proof.Machine
end

