-- ==== Sys2Proof/Machine/Fetch.lean ====
section
/-! DEFINITION. The fetch unit (40_fetch_decode.md R75 to R78): instruction bytes from memory into the decoder. -/

namespace Sys2Proof.Machine

/-- Byte `k` of the instruction at PC, behind the range check of its address (R76, R78). -/
def fetchByte (s : State) (k : Nat) : Except Raise Byte := memRead s (s.pcPlus k)

/-- Fetch and decode the instruction at PC. The order of the checks is that of R107 items 1 to 3. -/
def fetch (s : State) : Except Raise Instr := decodeWith .illegalOpcode (fetchByte s)

/-- The bytes of memory from PC up to address 255. -/
def State.codeBytes (s : State) : List Byte := s.mem.bytesFrom s.pc.toNat (256 - s.pc.toNat)

/-- Place instruction bytes at PC and make the core Running, so that the next step fetches them (log 14). -/
def placeAtPc (s : State) (bs : List Byte) : State :=
  { s with mem := s.mem.writeBytes s.pc.toNat bs, runState := .running }

end Sys2Proof.Machine
end

