-- ==== Sys2Proof/Machine/Step.lean ====
section
/-! DEFINITION. The step (40_fetch_decode.md R74, R75). -/

namespace Sys2Proof.Machine

/-- R75: a Running core fetches, decodes and executes one instruction, or enters Faulted. In Halted and Faulted
the core "takes no further step and changes no state until the next reset" (R35): the state stays as it is
(log 2). -/
def step (s : State) : Host.Outcome State Fault Refusal :=
  match s.runState with
  | .running =>
    match fetch s with
    | .ok i => exec i s
    | .error r => .next (takeFault r s)
  | .halted => .next s
  | .faulted => .next s

/-- `s` with the instruction whose bits are `w`, numbered as spec/opcode_table.json numbers them, stored where the
next step fetches (log 14). -/
def State.withFetchWord (s : State) (nbits w : Nat) : State := placeAtPc s (tableBytes nbits w)

end Sys2Proof.Machine
end

