-- ==== Sys2Proof/Machine/Assembler.lean ====
section
/-! DEFINITION. The assembler syntax of 30_encoding.md R69: an instruction as text, and text as bytes. It touches
no state of the core. Text is a list of characters. Log 12 names what R69 leaves open. -/

namespace Sys2Proof.Assembler

/-! ### Writing -/

/-- A decimal digit. -/
def digitChar (n : Nat) : Char := Char.ofNat (48 + n)

/-- A byte in decimal, without leading zeros. -/
def showByte (b : Byte) : List Char :=
  let n := b.toNat
  (if 100 ≤ n then [digitChar (n / 100)] else []) ++
    (if 10 ≤ n then [digitChar (n / 10 % 10)] else []) ++ [digitChar (n % 10)]

/-- A register, `R0` to `R7`. -/
def showReg (b : Byte) : List Char := 'R' :: showByte b

/-- Operands separated by commas. -/
def showOperands : List (List Char) → List Char
  | [] => []
  | [x] => x
  | x :: xs => x ++ ',' :: showOperands xs

/-- The operands of an instruction as text (the operand shapes of R69). -/
def operandTexts : Instr → List (List Char)
  | .ldi ra imm => [showReg ra, showByte imm]
  | .prn ra => [showReg ra]
  | .hlt => []
  | .push ra => [showReg ra]
  | .pop ra => [showReg ra]
  | .mul ra rb => [showReg ra, showReg rb]
  | .div ra rb => [showReg ra, showReg rb]
  | .add ra rb => [showReg ra, showReg rb]
  | .sub ra rb => [showReg ra, showReg rb]
  | .cmp ra rb => [showReg ra, showReg rb]
  | .jeq ra => [showReg ra]
  | .jne ra => [showReg ra]
  | .jmp ra => [showReg ra]

/-- One instruction as text: the mnemonic, then its operands. -/
def showInstr (i : Instr) : List Char :=
  match operandTexts i with
  | [] => i.mnemonic
  | ops => i.mnemonic ++ ' ' :: showOperands ops

/-! ### Reading -/

/-- Cut a text at every character that satisfies `p`. -/
def cutAt (p : Char → Bool) : List Char → List (List Char)
  | [] => [[]]
  | c :: cs =>
    match cutAt p cs with
    | [] => [[c]]
    | piece :: rest => if p c then [] :: piece :: rest else (c :: piece) :: rest

/-- The spaces an assembler passes over at the ends of a piece. -/
def isBlank (c : Char) : Bool := c == ' ' || c == '\t' || c == '\r'

/-- A piece without the blanks at its ends. -/
def trim (cs : List Char) : List Char :=
  ((cs.dropWhile isBlank).reverse.dropWhile isBlank).reverse

/-- The value of a digit of a number in `base`. -/
def digitValue (base : Nat) (c : Char) : Option Nat :=
  let n := c.toNat
  let d :=
    if 48 ≤ n ∧ n ≤ 57 then n - 48
    else if 97 ≤ n ∧ n ≤ 102 then n - 87
    else if 65 ≤ n ∧ n ≤ 70 then n - 55
    else base
  if d < base then some d else none

/-- Digits, the most significant first, after the value `acc`. -/
def readDigits (base : Nat) : Nat → List Char → Option Nat
  | acc, [] => some acc
  | acc, c :: cs =>
    match digitValue base c with
    | some d => readDigits base (acc * base + d) cs
    | none => none

/-- A number of at least one digit, 0 to 255. -/
def readNumber (base : Nat) (cs : List Char) : Option Byte :=
  if cs = [] then none
  else
    match readDigits base 0 cs with
    | some n => if n ≤ 255 then some (BitVec.ofNat 8 n) else none
    | none => none

/-- An immediate in hexadecimal (`0x`), binary (`0b`) or decimal (R69). -/
def readImm : List Char → Option Byte
  | '0' :: 'x' :: cs => readNumber 16 cs
  | '0' :: 'b' :: cs => readNumber 2 cs
  | cs => readNumber 10 cs

/-- A register `R0` to `R7` (R69). -/
def readReg : List Char → Option Byte
  | ['R', c] => (digitValue 8 c).map (BitVec.ofNat 8)
  | _ => none

/-- The opcodes an assembler knows by mnemonic, the 13 of R64; there are no pseudo-instructions (R70). -/
def opcodes : List Byte :=
  [0x82#8, 0x47#8, 0x01#8, 0x45#8, 0x46#8, 0xA2#8, 0xA3#8, 0xA0#8, 0xA1#8, 0xA7#8, 0x55#8, 0x56#8, 0x54#8]

/-- The shape whose instructions have the mnemonic `name`. -/
def shapeNamed (name : List Char) : Option Shape :=
  (opcodes.filterMap shapeOf).find? fun sh =>
    match sh with
    | .z i => i.mnemonic == name
    | .r mk => (mk 0#8).mnemonic == name
    | .rr mk => (mk 0#8 0#8).mnemonic == name
    | .ri mk => (mk 0#8 0#8).mnemonic == name

/-- Fill a shape from its operand texts. -/
def fillShape : Shape → List (List Char) → Option Instr
  | .z i, [] => some i
  | .r mk, [x] => (readReg x).map mk
  | .rr mk, [x, y] =>
    match readReg x, readReg y with
    | some a, some b => some (mk a b)
    | _, _ => none
  | .ri mk, [x, y] =>
    match readReg x, readImm y with
    | some a, some b => some (mk a b)
    | _, _ => none
  | _, _ => none

/-- One instruction from its text. -/
def readInstr (text : List Char) : Option Instr :=
  let t := trim text
  let name := t.takeWhile fun c => !isBlank c
  let rest := trim (t.drop name.length)
  let ops := if rest = [] then [] else (cutAt (· == ',') rest).map trim
  match shapeNamed name with
  | some sh => fillShape sh ops
  | none => none

/-- Read pieces one after another; a blank piece is no instruction. -/
def readPieces : List (List Char) → Option (List Instr)
  | [] => some []
  | p :: ps =>
    if trim p = [] then readPieces ps
    else
      match readInstr p, readPieces ps with
      | some i, some is => some (i :: is)
      | _, _ => none

/-- A source text to its bytes (R69): one instruction per line or several separated by `;`, and "the bytes of
rules R59 to R62 in order, at consecutive addresses". -/
def assemble (text : List Char) : Option (List Byte) :=
  match readPieces (cutAt (fun c => c == '\n' || c == ';') text) with
  | some is => some (is.flatMap encode)
  | none => none

end Sys2Proof.Assembler
end

