-- ==== Sys2Proof/Machine/Boot.lean ====
section
/-! DEFINITION. What the host does to the core and reads from it (70_reset_and_hazards.md R120 to R127,
40_fetch_decode.md R73): load, reset, the status outputs and the trace view (log 11). -/

namespace Sys2Proof.Machine

/-- R120, R122: reset asserted between two steps of any state, and released. Everything the core holds takes its
reset value; memory is not written, and the host's stack limits stand (R125; log 4). -/
def State.assertReset (s : State) : State :=
  { State.reset with mem := s.mem, stackLow := s.stackLow, stackHigh := s.stackHigh }

/-- R123, R125: the host zeroes memory, loads the program bytes at consecutive addresses from 0, fixes the stack
limits and releases reset. `none` is a load error of the host: an image of more than 256 bytes (R123), or limits
out of the order R16 requires. -/
def State.boot (low high : Byte) (image : List Byte) : Option State :=
  if image.length ≤ Config.memSize ∧ low.toNat ≤ high.toNat then
    some { State.reset with mem := Memory.writeBytes [] 0 image, stackLow := low, stackHigh := high }
  else none

/-- What the host can read at any time (R43, R73): the output log, STATE and the fault registers, in their
numbers (R34, R105). -/
structure HostOutputs where
  output : List Byte
  state : BitVec 2
  faultCause : BitVec 3
  faultPc : Word9
  faultInfo : Word9
  deriving DecidableEq, Repr

/-- The outputs of a state. -/
def State.outputs (s : State) : HostOutputs :=
  ⟨s.output, s.runState.code, s.faultCause.code, s.faultPc, s.faultInfo⟩

/-- The trace view of R118: PC, the bytes at PC, PC+1 and PC+2 as far as those addresses are 255 or below, and
R0 to R7. -/
structure TraceView where
  pc : Word9
  bytes : List Byte
  regs : Vector Byte 8
  deriving DecidableEq, Repr

/-- The trace view of a state, taken between steps and without effect on it (R118). -/
def State.trace (s : State) : TraceView :=
  ⟨s.pc, s.mem.bytesFrom s.pc.toNat (min 3 (256 - s.pc.toNat)), s.regs⟩

end Sys2Proof.Machine
end

