-- ==== Sys2Proof/Safety.lean ====
section
/-! DEFINITION. The terms statements are written in: how a run ends, the fault a step must report, the next PC it
must take, which registers an instruction may read, and the invariant of the core. They are read off the spec's rules over the
bytes at PC, without the decoder, the fetch unit or the meanings. -/

namespace Sys2Proof.Machine

/-! ### The end of a run (R127) -/

/-- A run that has ended normally. -/
def State.NormalEnd (s : State) : Prop := s.runState = .halted

/-- A run that has ended in error. -/
def State.ErrorEnd (s : State) : Prop := s.runState = .faulted

/-- `k` steps from `s` are free of faults. -/
def SafeRun (k : Nat) (s : State) : Prop :=
  ∃ t, Sys2Proof.core.run k s = .next t ∧ ¬ t.ErrorEnd

/-! ### Faults as the rules describe them (R105, R107, R109) -/

/-- The Faulted state R109 describes: the fault registers and STATE are written, nothing else is. -/
def State.faultedWith (s : State) (c : FaultCause) (info : Word9) : State :=
  { s with runState := .faulted, faultCause := c, faultPc := s.pc, faultInfo := info }

/-- The byte `k` places after the opcode byte at PC. -/
def State.codeByte (s : State) (k : Nat) : Byte := s.mem.read (s.pc.toNat + k)

/-- The opcodes of format Z (R59). -/
def opcodesZ : List Byte := [0x01#8]

/-- The opcodes of format R (R60). -/
def opcodesR : List Byte := [0x45#8, 0x46#8, 0x47#8, 0x54#8, 0x55#8, 0x56#8]

/-- The opcodes of format RI (R62). -/
def opcodesRI : List Byte := [0x82#8]

/-- The opcodes of format RR (R61). -/
def opcodesRR : List Byte := [0xA0#8, 0xA1#8, 0xA2#8, 0xA3#8, 0xA7#8]

/-- The 13 opcodes of R64 and R66. -/
def legalOpcodes : List Byte := opcodesZ ++ opcodesR ++ opcodesRI ++ opcodesRR

/-- The number of operand bytes of a legal opcode (R58, R64). -/
def operandCount (op : Byte) : Nat :=
  if op ∈ opcodesZ then 0 else if op ∈ opcodesR then 1 else 2

/-- The value of the register a byte names, once R79 has let the byte pass. -/
def State.regOfByte (s : State) (b : Byte) : Byte := s.regs.toList.getD b.toNat 0#8

/-- R107 item 4: the first register operand byte above 7 of the instruction at PC. -/
def State.badCodeByte (s : State) : Option Byte :=
  if s.codeByte 0 ∈ opcodesZ then none
  else if 7 < (s.codeByte 1).toNat then some (s.codeByte 1)
  else if s.codeByte 0 ∈ opcodesRR ∧ 7 < (s.codeByte 2).toNat then some (s.codeByte 2)
  else none

/-- R107 item 5: the own check of DIV (R94), PUSH and POP (R97). -/
def State.ownFault (s : State) : Option (FaultCause × Word9) :=
  if s.codeByte 0 = 0xA3#8 ∧ s.regOfByte (s.codeByte 2) = 0#8 then
    some (.divisionByZero, zext9 (s.codeByte 2))
  else if s.codeByte 0 = 0x45#8 ∧ s.sp.toNat ≤ s.stackLow.toNat then some (.stackOverflow, zext9 s.sp)
  else if s.codeByte 0 = 0x46#8 ∧ s.stackHigh.toNat ≤ s.sp.toNat then some (.stackUnderflow, zext9 s.sp)
  else none

/-- R107: the first fault of the instruction at PC, in the fixed order of the checks, with its detail (R105). -/
def State.stepFault (s : State) : Option (FaultCause × Word9) :=
  if 255 < s.pc.toNat then some (.addressOutOfRange, s.pc)
  else if s.codeByte 0 ∉ legalOpcodes then some (.illegalOpcode, zext9 (s.codeByte 0))
  else if 255 < s.pc.toNat + operandCount (s.codeByte 0) then some (.addressOutOfRange, 256#9)
  else
    match s.badCodeByte with
    | some b => some (.invalidRegister, zext9 b)
    | none => s.ownFault

/-- The exceptions line of a register-operand rule: the first byte above 7 is reported (R79). -/
def RaisesOnBadRegister (i : Instr) : Prop :=
  ∀ (s : State) (b : Byte), i.badRegByte = some b →
    exec i s = .next (s.faultedWith .invalidRegister (zext9 b))

/-- The exceptions line of a rule with operands: an operand byte at address 256 (R78). -/
def FaultsPastEnd (i : Instr) : Prop :=
  ∀ s : State, s.runState = .running → s.pc.toNat ≤ 255 → s.codeByte 0 = i.opcode →
    255 < s.pc.toNat + i.operandBytes.length → step s = .next (s.faultedWith .addressOutOfRange 256#9)

/-! ### Next PC (R83) -/

/-- Whether the instruction at PC is a taken jump (R101 to R103). -/
def State.takesJump (s : State) : Bool :=
  s.codeByte 0 == 0x54#8 || (s.codeByte 0 == 0x55#8 && s.fl == .equal)
    || (s.codeByte 0 == 0x56#8 && s.fl != .equal)

/-- R83: the PC after a step without a fault. -/
def State.nextPc (s : State) : Nat :=
  if s.codeByte 0 = 0x01#8 then s.pc.toNat
  else if s.takesJump then (s.regOfByte (s.codeByte 1)).toNat
  else s.pc.toNat + 1 + operandCount (s.codeByte 0)

end Sys2Proof.Machine

namespace Sys2Proof

/-! ### Which registers an instruction reads (R24) -/

/-- The "registers read" column of R24. -/
def Instr.readsReg (i : Instr) (r : RegIdx) : Bool :=
  match i with
  | .ldi _ _ => false
  | .prn ra => ra == regByte r
  | .hlt => false
  | .push ra => ra == regByte r || r == Config.spIndex
  | .pop _ => r == Config.spIndex
  | .mul ra rb => ra == regByte r || rb == regByte r
  | .div ra rb => ra == regByte r || rb == regByte r
  | .add ra rb => ra == regByte r || rb == regByte r
  | .sub ra rb => ra == regByte r || rb == regByte r
  | .cmp ra rb => ra == regByte r || rb == regByte r
  | .jeq ra => ra == regByte r
  | .jne ra => ra == regByte r
  | .jmp ra => ra == regByte r

end Sys2Proof

namespace Sys2Proof.Machine

/-! ### The invariant -/

/-- What holds of every state a run reaches: the memory keeps its form, PC is 0 to 256 (R27), the limits are in
order (R16), the fault registers are 0 until Faulted is entered (R36), a Halted core stands at a HLT (R104), and
in Faulted the registers name the fault that R107 gives for the instruction at FAULT_PC (R105, R109). -/
structure State.Inv (s : State) : Prop where
  memWf : s.mem.wf = true
  pcRange : s.pc.toNat ≤ 256
  limits : s.stackLow.toNat ≤ s.stackHigh.toNat
  noFault : s.runState ≠ .faulted → s.faultCause = .noFault ∧ s.faultPc = 0#9 ∧ s.faultInfo = 0#9
  halted : s.runState = .halted → s.pc.toNat ≤ 255 ∧ s.codeByte 0 = 0x01#8
  faulted : s.runState = .faulted → s.faultPc = s.pc ∧ s.stepFault = some (s.faultCause, s.faultInfo)

end Sys2Proof.Machine
end

