-- ==== Sys2Proof/Certificates/Slice0/Obligations.lean ====
section
/-! DEFINITION. The statements for the provers. Each says which rule of spec/ it formalises. `regByte r` is the
operand byte that names register R<r>, so a statement over `regByte a` holds for every legal register operand. -/

open Sys2Proof Sys2Proof.Machine Sys2Proof.Assembler

/-! ### Encoding (30_encoding.md) -/

/-- R59 to R62, R64: the word of each row of the opcode table decodes to the row's instruction. -/
def Obligations.TableWordsDecode : Prop :=
  ∀ (a b : Byte) (rest : List Byte),
    decode (0b10000010#8 :: a :: b :: rest) = .ok (.ldi a b, rest) ∧
    decode (0b01000111#8 :: a :: rest) = .ok (.prn a, rest) ∧
    decode (0b00000001#8 :: rest) = .ok (.hlt, rest) ∧
    decode (0b01000101#8 :: a :: rest) = .ok (.push a, rest) ∧
    decode (0b01000110#8 :: a :: rest) = .ok (.pop a, rest) ∧
    decode (0b10100010#8 :: a :: b :: rest) = .ok (.mul a b, rest) ∧
    decode (0b10100011#8 :: a :: b :: rest) = .ok (.div a b, rest) ∧
    decode (0b10100000#8 :: a :: b :: rest) = .ok (.add a b, rest) ∧
    decode (0b10100001#8 :: a :: b :: rest) = .ok (.sub a b, rest) ∧
    decode (0b10100111#8 :: a :: b :: rest) = .ok (.cmp a b, rest) ∧
    decode (0b01010101#8 :: a :: rest) = .ok (.jeq a, rest) ∧
    decode (0b01010110#8 :: a :: rest) = .ok (.jne a, rest) ∧
    decode (0b01010100#8 :: a :: rest) = .ok (.jmp a, rest)

/-- Decoding an encoded instruction gives it back, with every operand byte at every value, whatever follows it. -/
def Obligations.DecodeOfEncodeIsIdentity : Prop :=
  ∀ (i : Instr) (rest : List Byte), decode (encode i ++ rest) = .ok (i, rest)

/-- Decoding inverts encoding and nothing else does: bytes decode to an instruction exactly when they begin with its
encoding, and the rest of the bytes is the rest of the list. Each word has one meaning, and no bit is dropped. -/
def Obligations.DecodeInvertsEncodeExactly : Prop :=
  ∀ (bs : List Byte) (i : Instr) (rest : List Byte), decode bs = .ok (i, rest) ↔ bs = encode i ++ rest

/-- R66: the 13 opcodes are recognised, any other byte is an illegal opcode, and its fetch raises IllegalOpcode with
the byte as info, at address 255 too. Byte 0x00 is illegal. -/
def Obligations.OnlyThirteenOpcodesAreLegal : Prop :=
  (∀ (op : Byte) (rest : List Byte),
    decode (op :: rest) = .error (.illegalOpcode op) ↔
      op ∉ [0x01#8, 0x45#8, 0x46#8, 0x47#8, 0x54#8, 0x55#8, 0x56#8, 0x82#8, 0xA0#8, 0xA1#8, 0xA2#8, 0xA3#8, 0xA7#8]) ∧
  (∀ s : State, s.runState = .running → s.pc.toNat ≤ 255 →
    s.codeByte 0 ∉
      [0x01#8, 0x45#8, 0x46#8, 0x47#8, 0x54#8, 0x55#8, 0x56#8, 0x82#8, 0xA0#8, 0xA1#8, 0xA2#8, 0xA3#8, 0xA7#8] →
    step s = .next (s.faultedWith .illegalOpcode (zext9 (s.codeByte 0)))) ∧
  (∀ rest : List Byte, decode (0x00#8 :: rest) = .error (.illegalOpcode 0x00#8))

/-- R69 and the choices of log 12: the text of an instruction with legal register bytes reads back as the
instruction, and a text of several such lines assembles to their bytes in order. -/
def Obligations.AssemblerReadsWhatItWrites : Prop :=
  (∀ i : Instr, i.wellFormed = true → readInstr (showInstr i) = some i) ∧
  (∀ i j : Instr, i.wellFormed = true → j.wellFormed = true →
    assemble (showInstr i ++ ';' :: showInstr j) = some (encode i ++ encode j) ∧
    assemble (showInstr i ++ '\n' :: showInstr j) = some (encode i ++ encode j))

/-! ### Reset and load (10_state.md, 70_reset_and_hazards.md) -/

/-- R44: every row of the reset table, of `State.reset` (MEM_INIT with no program byte: zero everywhere) and after a
reset asserted in any state (memory as it was). -/
def Obligations.ResetGivesTheTableValues : Prop :=
  (∀ a : Nat, State.reset.mem.read a = 0x00#8) ∧
  ∀ s t : State, (t = State.reset ∨ t = s.assertReset) →
    t.regs = #v[0x00#8, 0x00#8, 0x00#8, 0x00#8, 0x00#8, 0x00#8, 0x00#8, 0xF4#8] ∧ t.pc = 0#9 ∧
      t.fl.bits = 0b000#3 ∧ t.runState = .running ∧ t.faultCause.code = 0#3 ∧ t.faultPc = 0#9 ∧ t.faultInfo = 0#9 ∧
      t.output = [] ∧ s.assertReset.mem = s.mem

/-- R17, R123, R16: a loaded machine is the reset machine over an image that holds the program bytes from address 0
and zero elsewhere; an image of more than 256 bytes, or limits out of order, is not loaded. -/
def Obligations.BootPlacesTheImageAtZero : Prop :=
  ∀ (low high : Byte) (image : List Byte),
    ((image.length ≤ 256 ∧ low.toNat ≤ high.toNat) →
      ∃ s : State, State.boot low high image = some s ∧ (∀ k : Nat, s.mem.read k = image.getD k 0x00#8) ∧
        s.mem.wf = true ∧ s.stackLow = low ∧ s.stackHigh = high ∧
        s = { State.reset with mem := s.mem, stackLow := low, stackHigh := high }) ∧
    (¬ (image.length ≤ 256 ∧ low.toNat ≤ high.toNat) → State.boot low high image = none)

/-! ### The invariant -/

/-- The invariant holds at reset. -/
def Obligations.InvariantHoldsAtReset : Prop := State.reset.Inv

/-- The invariant holds of every loaded machine, and a reset asserted in any state that has it keeps it. -/
def Obligations.InvariantHoldsAtBootAndAfterReset : Prop :=
  (∀ (low high : Byte) (image : List Byte) (s : State), State.boot low high image = some s → s.Inv) ∧
  (∀ s : State, s.Inv → s.assertReset.Inv)

/-- Every step keeps the invariant: canonical memory, PC in 0 to 256, limits in order, fault registers 0 outside
Faulted, a Halted core at a HLT, and in Faulted the fault registers name the fault R107 gives. -/
def Obligations.StepKeepsTheInvariant : Prop :=
  ∀ s t : State, s.Inv → step s = .next t → t.Inv

/-- Any number of steps from any loaded image answers a state, and it has the invariant. -/
def Obligations.EveryRunFromBootKeepsTheInvariant : Prop :=
  ∀ (low high : Byte) (image : List Byte) (s : State), State.boot low high image = some s →
    ∀ k : Nat, ∃ t : State, Sys2Proof.core.run k s = .next t ∧ t.Inv

/-! ### Memory (20_memory.md) -/

/-- R52: after any sequence of writes a read gives the most recent write to its address, or what the address held
before them; R38: the addresses written are 0 to 255. -/
def Obligations.ReadGivesTheMostRecentWrite : Prop :=
  ∀ (m : Memory) (ws : List (Byte × Byte)) (a : Nat), m.wf = true →
    (ws.foldl (fun m w => Memory.write m w.1.toNat w.2) m).read a =
      match ws.reverse.find? (fun w => w.1.toNat == a) with
      | some w => w.2
      | none => m.read a

/-- R24, R46, R48: a step changes a byte of memory only if the instruction at PC is a PUSH, and only the byte at
SP - 1. -/
def Obligations.OnlyPushChangesMemory : Prop :=
  ∀ s t : State, step s = .next t → ∀ a : Nat, t.mem.read a ≠ s.mem.read a →
    s.runState = .running ∧ s.codeByte 0 = 0x45#8 ∧ a = (pushAddr s).toNat ∧ a + 1 = s.sp.toNat

/-- R129, R56: the byte a PUSH stores is what a fetch right after it reads, the byte after the PUSH too: an opcode
byte there that is no opcode raises IllegalOpcode, and a HLT there halts. -/
def Obligations.FetchSeesThePushedByte : Prop :=
  ∀ (s : State) (a : RegIdx), s.runState = .running → s.mem.wf = true → s.pc.toNat ≤ 254 → s.codeByte 0 = 0x45#8 →
    s.codeByte 1 = regByte a → s.stackLow.toNat < s.sp.toNat →
    ∃ t : State, step s = .next t ∧
      (∀ k : Nat, t.pc.toNat + k = (pushAddr s).toNat → t.codeByte k = s.reg a) ∧
      (s.pc.toNat + 2 = (pushAddr s).toNat →
        (s.reg a ∉ legalOpcodes → step t = .next (t.faultedWith .illegalOpcode (zext9 (s.reg a)))) ∧
        (s.reg a = 0x01#8 → step t = .next { t with runState := .halted }))

/-! ### The step (40_fetch_decode.md) -/

/-- A step of a Running core decodes the bytes from PC to address 255 and executes what they decode to; it adds
nothing around `exec`. Where they do not decode, the step faults: on an illegal opcode, or at the address of the
first byte that memory does not have. -/
def Obligations.StepRunsTheDecodedInstruction : Prop :=
  ∀ s : State, s.runState = .running →
    (∀ (i : Instr) (rest : List Byte), decode s.codeBytes = .ok (i, rest) → step s = exec i s) ∧
    (∀ op : Byte, decode s.codeBytes = .error (.illegalOpcode op) →
      step s = .next (s.faultedWith .illegalOpcode (zext9 op))) ∧
    (∀ k : Nat, decode s.codeBytes = .error (.missingByte k) →
      step s = .next (s.faultedWith .addressOutOfRange (s.pc + BitVec.ofNat 9 k)))

/-- R76, R78: the opcode is read at PC and the operand bytes after it, lowest first and only after a successful decode;
PC = 256, and an operand byte at address 256 of a legal opcode, raise AddressOutOfRange(256). -/
def Obligations.FetchReadsOpcodeThenOperands : Prop :=
  ∀ s : State, s.runState = .running →
    (s.pc = 256#9 → step s = .next (s.faultedWith .addressOutOfRange 256#9)) ∧
    (∀ i : Instr, (∀ k : Nat, k < (encode i).length →
        s.pc.toNat + k ≤ 255 ∧ (encode i)[k]? = some (s.codeByte k)) → step s = exec i s) ∧
    (∀ i : Instr, s.pc.toNat ≤ 255 → s.codeByte 0 = i.opcode → 255 < s.pc.toNat + i.operandBytes.length →
      step s = .next (s.faultedWith .addressOutOfRange 256#9)) ∧
    (s.pc.toNat ≤ 255 → s.codeByte 0 ∉ legalOpcodes →
      step s = .next (s.faultedWith .illegalOpcode (zext9 (s.codeByte 0))))

/-- Log 14: a word placed by `State.withFetchWord` where three bytes fit is what the next step executes. -/
def Obligations.PlacedWordIsTheNextInstruction : Prop :=
  ∀ (s : State) (nbits w : Nat) (i : Instr), s.mem.wf = true → s.pc.toNat ≤ 253 →
    decodeTableWord nbits w = some i →
    step (s.withFetchWord nbits w) = exec i (s.withFetchWord nbits w)

/-- R79: every register operand byte is checked, byte 1 before byte 2, whether or not the instruction will use the
register's value; the immediate of LDI is not checked. The check comes after the operand fetch, whose fault wins. -/
def Obligations.RegisterBytesAreCheckedInOrder : Prop :=
  (∀ (i : Instr) (s : State) (b : Byte), i.badRegByte = some b →
    exec i s = .next (s.faultedWith .invalidRegister (zext9 b))) ∧
  (∀ (i : Instr) (s t : State), s.runState = .running → i.badRegByte = none → exec i s = .next t →
    ¬ (t.runState = .faulted ∧ t.faultCause = .invalidRegister)) ∧
  (∀ (ra rb : Byte) (i : Instr), i ∈ [.add ra rb, .sub ra rb, .mul ra rb, .div ra rb, .cmp ra rb] →
    i.badRegByte = if 7 < ra.toNat then some ra else if 7 < rb.toNat then some rb else none) ∧
  (∀ (ra imm : Byte) (i : Instr),
    i ∈ [.prn ra, .push ra, .pop ra, .jeq ra, .jne ra, .jmp ra, .ldi ra imm] →
    i.badRegByte = if 7 < ra.toNat then some ra else none) ∧
  Instr.hlt.badRegByte = none ∧ (∀ i : Instr, FaultsPastEnd i)

/-- No instruction stops the model: `exec` answers a next state on every operand and in every state. -/
def Obligations.EveryInstructionAnswersANextState : Prop :=
  ∀ (i : Instr) (s : State), ∃ t : State, exec i s = .next t

/-- R28, R83, R85: a step of a Running core ends Running with the next PC, Halted at the HLT's own address, or
Faulted at the faulting instruction's address. -/
def Obligations.RunningStepTakesTheNextPc : Prop :=
  ∀ s : State, s.runState = .running → ∃ t : State, step s = .next t ∧
    ((t.runState = .running ∧ s.stepFault = none ∧ s.codeByte 0 ≠ 0x01#8 ∧ t.pc.toNat = s.nextPc ∧ s.nextPc ≤ 256) ∨
     (t.runState = .halted ∧ s.stepFault = none ∧ s.codeByte 0 = 0x01#8 ∧ t.pc = s.pc) ∨
     (t.runState = .faulted ∧ s.stepFault ≠ none ∧ t.pc = s.pc))

/-- R35 in the reading of log 2: in Halted and Faulted no number of steps changes any state, and a reset makes the
core Running again. -/
def Obligations.HaltedAndFaultedChangeNothing : Prop :=
  ∀ s : State, s.runState ≠ .running →
    (∀ k : Nat, Sys2Proof.core.run k s = .next s) ∧ s.assertReset.runState = .running

/-- Log 1: no step changes the stack limits, which are parameters of the run (R15, R16). -/
def Obligations.NoStepChangesTheLimits : Prop :=
  ∀ s t : State, step s = .next t → t.stackLow = s.stackLow ∧ t.stackHigh = s.stackHigh

/-! ### Data move (41_data_move.md) -/

/-- R86: LDI writes its immediate to Ra and advances PC by 3. -/
def Obligations.LdiWritesItsImmediate : Prop :=
  (∀ ra imm : Byte, encode (.ldi ra imm) = [0x82#8, ra, imm]) ∧
  (∀ (s : State) (a : RegIdx) (imm : Byte),
    exec (.ldi (regByte a) imm) s = .next { s with regs := s.regs.set a imm, pc := s.pc + 3#9 }) ∧
  (∀ ra imm : Byte, RaisesOnBadRegister (.ldi ra imm) ∧ FaultsPastEnd (.ldi ra imm))

/-- R87: PRN appends the value of Ra to the output log and advances PC by 2. -/
def Obligations.PrnEmitsTheRegister : Prop :=
  (∀ ra : Byte, encode (.prn ra) = [0x47#8, ra]) ∧
  (∀ (s : State) (a : RegIdx),
    exec (.prn (regByte a)) s = .next { s with output := s.output ++ [s.regs[a]], pc := s.pc + 2#9 }) ∧
  (∀ ra : Byte, RaisesOnBadRegister (.prn ra) ∧ FaultsPastEnd (.prn ra))

/-- R43, R88: a step leaves the output log alone, or appends exactly one value, and only if the instruction at PC is a
PRN, the value being that of the register it names. -/
def Obligations.OnlyPrnExtendsTheOutput : Prop :=
  ∀ s t : State, step s = .next t →
    t.output = s.output ∨
      (s.runState = .running ∧ s.codeByte 0 = 0x47#8 ∧
        ∃ r : RegIdx, s.codeByte 1 = regByte r ∧ t.output = s.output ++ [s.reg r])

/-! ### ALU (42_alu.md, 40_fetch_decode.md R81) -/

/-- R91: ADD writes the sum modulo 256 to Ra and advances PC by 3; FL is unchanged. -/
def Obligations.AddWritesTheSumModulo256 : Prop :=
  (∀ ra rb : Byte, encode (.add ra rb) = [0xA0#8, ra, rb]) ∧
  (∀ (s : State) (a b : RegIdx), exec (.add (regByte a) (regByte b)) s =
    .next { s with
      regs := s.regs.set a (BitVec.ofNat 8 (((s.regs[a]).toNat + (s.regs[b]).toNat) % 256)), pc := s.pc + 3#9 }) ∧
  (∀ ra rb : Byte, RaisesOnBadRegister (.add ra rb) ∧ FaultsPastEnd (.add ra rb))

/-- R92: SUB writes the difference modulo 256 to Ra and advances PC by 3; FL is unchanged. -/
def Obligations.SubWritesTheDifferenceModulo256 : Prop :=
  (∀ ra rb : Byte, encode (.sub ra rb) = [0xA1#8, ra, rb]) ∧
  (∀ (s : State) (a b : RegIdx), exec (.sub (regByte a) (regByte b)) s =
    .next { s with
      regs := s.regs.set a (BitVec.ofInt 8 ((((s.regs[a]).toNat : Int) - ((s.regs[b]).toNat : Int)) % 256)),
      pc := s.pc + 3#9 }) ∧
  (∀ ra rb : Byte, RaisesOnBadRegister (.sub ra rb) ∧ FaultsPastEnd (.sub ra rb))

/-- R93: MUL writes the low 8 bits of the product to Ra and advances PC by 3; FL is unchanged. -/
def Obligations.MulWritesTheProductModulo256 : Prop :=
  (∀ ra rb : Byte, encode (.mul ra rb) = [0xA2#8, ra, rb]) ∧
  (∀ (s : State) (a b : RegIdx), exec (.mul (regByte a) (regByte b)) s =
    .next { s with
      regs := s.regs.set a (BitVec.ofNat 8 (((s.regs[a]).toNat * (s.regs[b]).toNat) % 256)), pc := s.pc + 3#9 }) ∧
  (∀ ra rb : Byte, RaisesOnBadRegister (.mul ra rb) ∧ FaultsPastEnd (.mul ra rb))

/-- R94: DIV writes the floor of the quotient to Ra and advances PC by 3; a zero divisor raises
DivisionByZero(rb) and nothing is written. -/
def Obligations.DivWritesTheFloorOrFaultsOnZero : Prop :=
  (∀ ra rb : Byte, encode (.div ra rb) = [0xA3#8, ra, rb]) ∧
  (∀ (s : State) (a b : RegIdx), s.regs[b] ≠ 0x00#8 → exec (.div (regByte a) (regByte b)) s =
    .next { s with
      regs := s.regs.set a (BitVec.ofNat 8 ((s.regs[a]).toNat / (s.regs[b]).toNat)), pc := s.pc + 3#9 }) ∧
  (∀ (s : State) (a b : RegIdx), s.regs[b] = 0x00#8 → exec (.div (regByte a) (regByte b)) s =
    .next (s.faultedWith .divisionByZero (BitVec.ofNat 9 b.val))) ∧
  (∀ ra rb : Byte, RaisesOnBadRegister (.div ra rb) ∧ FaultsPastEnd (.div ra rb))

/-- R95: CMP writes FL alone, with exactly the bit of the unsigned comparison set, and advances PC by 3. -/
def Obligations.CmpSetsOneFlagUnsigned : Prop :=
  (∀ ra rb : Byte, encode (.cmp ra rb) = [0xA7#8, ra, rb]) ∧
  (∀ (s : State) (a b : RegIdx), ∃ f : FlagState,
    exec (.cmp (regByte a) (regByte b)) s = .next { s with fl := f, pc := s.pc + 3#9 } ∧
    f.bits = (if (s.regs[a]).toNat = (s.regs[b]).toNat then 0b001#3
      else if (s.regs[a]).toNat < (s.regs[b]).toNat then 0b100#3 else 0b010#3)) ∧
  (∀ ra rb : Byte, RaisesOnBadRegister (.cmp ra rb) ∧ FaultsPastEnd (.cmp ra rb))

/-- R81: the ALU answers an 8-bit result for ADD, SUB, MUL and DIV, an FL value for CMP, DivisionByZero for DIV with
B = 0 alone, and UnsupportedOperation for a selector outside the five alone; no step raises the last. -/
def Obligations.AluAnswersByItsSelector : Prop :=
  (∀ a b : Byte, (∃ v, alu .add a b = .result v) ∧ (∃ v, alu .sub a b = .result v) ∧ (∃ v, alu .mul a b = .result v) ∧
    (∃ f, alu .cmp a b = .flags f) ∧ (b = 0x00#8 → alu .div a b = .divisionByZero) ∧
    (b ≠ 0x00#8 → ∃ v, alu .div a b = .result v)) ∧
  (∀ (sel : AluSelector) (a b : Byte), alu sel a b = .unsupportedOperation ↔ sel = .other) ∧
  (∀ s t : State, s.runState = .running → step s = .next t →
    ¬ (t.runState = .faulted ∧ t.faultCause = .unsupportedOperation))

/-! ### Flags (10_state.md section 3) -/

/-- R31: the layout of FL, at most one bit set, and the agreement of JNE's observed test with bit E clear. -/
def Obligations.FlagLayoutIsOneHot : Prop :=
  FlagState.unset.bits = 0b000#3 ∧ FlagState.equal.bits = 0b001#3 ∧ FlagState.greater.bits = 0b010#3 ∧
    FlagState.less.bits = 0b100#3 ∧
    ∀ f : FlagState, f.e = f.bits.getLsbD 0 ∧ f.g = f.bits.getLsbD 1 ∧ f.l = f.bits.getLsbD 2 ∧
      ((f.bits = 0#3 ∨ 1#3 < f.bits) ↔ f.e = false)

/-- R32: FL is written by CMP alone, which sets exactly one bit, and no faulting step writes it; it is read by JEQ and
JNE alone, and they read bit E alone. -/
def Obligations.FlagsAreWrittenByCmpAndReadByBranches : Prop :=
  (∀ s t : State, step s = .next t → t.fl ≠ s.fl →
    s.runState = .running ∧ t.runState = .running ∧ s.codeByte 0 = 0xA7#8) ∧
  (∀ (s t : State) (a b : RegIdx), exec (.cmp (regByte a) (regByte b)) s = .next t →
    t.fl.bits ∈ [0b001#3, 0b010#3, 0b100#3]) ∧
  (∀ (i : Instr) (s : State) (f : FlagState),
    ((∃ ra, i = .jeq ra ∨ i = .jne ra) → f.e = s.fl.e) →
    ∃ t u : State, exec i s = .next t ∧ exec i { s with fl := f } = .next u ∧
      { u with fl := s.fl } = { t with fl := s.fl })

/-! ### Stack (43_stack.md) -/

/-- R98: PUSH stores the register's old value at SP - 1, then SP is SP - 1, and PC advances by 2; at or below the low
limit it raises StackOverflow(SP) and writes nothing. -/
def Obligations.PushStoresBelowSp : Prop :=
  (∀ ra : Byte, encode (.push ra) = [0x45#8, ra]) ∧
  (∀ (s : State) (a : RegIdx), s.stackLow.toNat < s.sp.toNat →
    exec (.push (regByte a)) s =
      .next { s with
        mem := s.mem.write (s.sp.toNat - 1) s.regs[a],
        regs := s.regs.set 7 (BitVec.ofNat 8 (s.sp.toNat - 1)), pc := s.pc + 2#9 } ∧
    (s.mem.wf = true → (s.mem.write (s.sp.toNat - 1) s.regs[a]).read (s.sp.toNat - 1) = s.regs[a])) ∧
  (∀ (s : State) (a : RegIdx), s.sp.toNat ≤ s.stackLow.toNat →
    exec (.push (regByte a)) s = .next (s.faultedWith .stackOverflow (zext9 s.sp))) ∧
  (∀ ra : Byte, RaisesOnBadRegister (.push ra) ∧ FaultsPastEnd (.push ra))

/-- R99: POP increments SP and then writes the byte at the old SP to Ra, which wins for R7; PC advances by 2; at or
above the high limit it raises StackUnderflow(SP) and writes nothing. -/
def Obligations.PopLoadsFromSp : Prop :=
  (∀ ra : Byte, encode (.pop ra) = [0x46#8, ra]) ∧
  (∀ (s : State) (a : RegIdx), s.sp.toNat < s.stackHigh.toNat →
    exec (.pop (regByte a)) s =
      .next { s with
        regs := (s.regs.set 7 (BitVec.ofNat 8 (s.sp.toNat + 1))).set a (s.mem.read s.sp.toNat), pc := s.pc + 2#9 }) ∧
  (∀ (s : State) (a : RegIdx), s.stackHigh.toNat ≤ s.sp.toNat →
    exec (.pop (regByte a)) s = .next (s.faultedWith .stackUnderflow (zext9 s.sp))) ∧
  (∀ ra : Byte, RaisesOnBadRegister (.pop ra) ∧ FaultsPastEnd (.pop ra))

/-- R97: the two bounds tests on SP at the start of the step; a PUSH that passes leaves SP one lower and not below the
low limit, a POP that passes (into another register) one higher and not above the high limit: SP never wraps. -/
def Obligations.StackBoundsKeepSpInRange : Prop :=
  ∀ (s : State) (a : RegIdx),
    (∃ t, exec (.push (regByte a)) s = .next t ∧
      (s.sp.toNat ≤ s.stackLow.toNat → t = s.faultedWith .stackOverflow (zext9 s.sp)) ∧
      (s.stackLow.toNat < s.sp.toNat → t.sp.toNat + 1 = s.sp.toNat ∧ s.stackLow.toNat ≤ t.sp.toNat ∧
        t.runState = s.runState)) ∧
    (∃ t, exec (.pop (regByte a)) s = .next t ∧
      (s.stackHigh.toNat ≤ s.sp.toNat → t = s.faultedWith .stackUnderflow (zext9 s.sp)) ∧
      (s.sp.toNat < s.stackHigh.toNat → t.runState = s.runState ∧
        (a ≠ 7 → t.sp.toNat = s.sp.toNat + 1 ∧ t.sp.toNat ≤ s.stackHigh.toNat) ∧
        (a = 7 → t.sp = s.mem.read s.sp.toNat)))

/-- The round trip of 95_test_vectors.md S7: a PUSH and then a POP give the pushed value back and restore SP (POP R7
leaves the popped byte in R7). -/
def Obligations.PushThenPopRoundTrip : Prop :=
  ∀ (s : State) (a b : RegIdx), s.mem.wf = true → s.stackLow.toNat < s.sp.toNat →
    s.sp.toNat ≤ s.stackHigh.toNat →
    ∃ t u : State, exec (.push (regByte a)) s = .next t ∧ exec (.pop (regByte b)) t = .next u ∧
      u.reg b = s.reg a ∧ (b ≠ 7 → u.sp = s.sp) ∧ u.runState = s.runState ∧
      (∀ r : RegIdx, r ≠ b → r ≠ 7 → u.reg r = s.reg r)

/-! ### Branches (44_branch.md) -/

/-- R101: JMP sets PC to the value of Ra. -/
def Obligations.JmpSetsPcToTheRegister : Prop :=
  (∀ ra : Byte, encode (.jmp ra) = [0x54#8, ra]) ∧
  (∀ (s : State) (a : RegIdx), exec (.jmp (regByte a)) s = .next { s with pc := zext9 s.regs[a] }) ∧
  (∀ ra : Byte, RaisesOnBadRegister (.jmp ra) ∧ FaultsPastEnd (.jmp ra))

/-- R102: JEQ jumps in FL = Equal and falls through in the three other states. -/
def Obligations.JeqJumpsOnlyWhenEqual : Prop :=
  (∀ ra : Byte, encode (.jeq ra) = [0x55#8, ra]) ∧
  (∀ (s : State) (a : RegIdx), exec (.jeq (regByte a)) s =
    .next { s with pc := if s.fl = .equal then zext9 s.regs[a] else s.pc + 2#9 }) ∧
  (∀ ra : Byte, RaisesOnBadRegister (.jeq ra) ∧ FaultsPastEnd (.jeq ra))

/-- R103: JNE falls through in FL = Equal and jumps in the three other states. -/
def Obligations.JneJumpsUnlessEqual : Prop :=
  (∀ ra : Byte, encode (.jne ra) = [0x56#8, ra]) ∧
  (∀ (s : State) (a : RegIdx), exec (.jne (regByte a)) s =
    .next { s with pc := if s.fl = .equal then s.pc + 2#9 else zext9 s.regs[a] }) ∧
  (∀ (a b c : RegIdx) (s t : State), exec (.cmp (regByte a) (regByte b)) s = .next t →
    exec (.jeq (regByte c)) t =
      .next { t with pc := if s.regs[a] = s.regs[b] then zext9 s.regs[c] else t.pc + 2#9 } ∧
    exec (.jne (regByte c)) t =
      .next { t with pc := if s.regs[a] ≠ s.regs[b] then zext9 s.regs[c] else t.pc + 2#9 }) ∧
  (∀ ra : Byte, RaisesOnBadRegister (.jne ra) ∧ FaultsPastEnd (.jne ra))

/-! ### Halt (45_halt.md) -/

/-- R104: HLT sets STATE to Halted and leaves PC, registers, FL, memory and output; it cannot fault once fetched. That
a step in Halted then leaves the state as it is, is R35 in the reading of log 2. -/
def Obligations.HltHaltsInPlace : Prop :=
  encode .hlt = [0x01#8] ∧
  (∀ s : State, exec .hlt s = .next { s with runState := .halted }) ∧
  (∀ s : State, s.runState = .running → s.pc.toNat ≤ 255 → s.codeByte 0 = 0x01#8 →
    step s = .next { s with runState := .halted } ∧
    step { s with runState := .halted } = .next { s with runState := .halted })

/-! ### Faults (60_exceptions.md) -/

/-- R105: the codes, and for every fault a step raises the row it comes from, with its cause, its detail and FAULT_PC;
reset leaves code 0, and a step that does not fault leaves the fault registers as they are.
PC above 256 is shut out by the invariant (`State.Inv.pcRange`). -/
def Obligations.FaultRegistersFollowTheTable : Prop :=
  (FaultCause.noFault.code = 0#3 ∧ FaultCause.addressOutOfRange.code = 1#3 ∧ FaultCause.illegalOpcode.code = 2#3 ∧
    FaultCause.invalidRegister.code = 3#3 ∧ FaultCause.divisionByZero.code = 4#3 ∧
    FaultCause.stackOverflow.code = 5#3 ∧ FaultCause.stackUnderflow.code = 6#3 ∧
    FaultCause.unsupportedOperation.code = 7#3) ∧
  (Raise.unsupportedOperation.cause = .unsupportedOperation ∧ Raise.unsupportedOperation.info = 0#9) ∧
  (∀ s : State, s.assertReset.faultCause = .noFault ∧ s.assertReset.faultInfo = 0#9) ∧
  (∀ s t : State, step s = .next t → t.runState ≠ .faulted →
    t.faultCause = s.faultCause ∧ t.faultPc = s.faultPc ∧ t.faultInfo = s.faultInfo) ∧
  (∀ s t : State, s.runState = .running → s.pc.toNat ≤ 256 → step s = .next t → t.runState = .faulted →
    t.faultPc = s.pc ∧
    ((t.faultCause = .addressOutOfRange ∧ t.faultInfo = 256#9 ∧
        (s.pc = 256#9 ∨ (s.codeByte 0 ∈ legalOpcodes ∧ 255 < s.pc.toNat + operandCount (s.codeByte 0)))) ∨
     (t.faultCause = .illegalOpcode ∧ t.faultInfo = zext9 (s.codeByte 0) ∧ s.codeByte 0 ∉ legalOpcodes) ∨
     (t.faultCause = .invalidRegister ∧ s.codeByte 0 ∈ legalOpcodes ∧ s.codeByte 0 ≠ 0x01#8 ∧
        ∃ b : Byte, s.badCodeByte = some b ∧ 7 < b.toNat ∧ t.faultInfo = zext9 b) ∨
     (t.faultCause = .divisionByZero ∧ s.codeByte 0 = 0xA3#8 ∧
        ∃ r : RegIdx, s.codeByte 2 = regByte r ∧ s.reg r = 0x00#8 ∧ t.faultInfo = BitVec.ofNat 9 r.val) ∨
     (t.faultCause = .stackOverflow ∧ s.codeByte 0 = 0x45#8 ∧ s.sp.toNat ≤ s.stackLow.toNat ∧
        t.faultInfo = zext9 s.sp) ∨
     (t.faultCause = .stackUnderflow ∧ s.codeByte 0 = 0x46#8 ∧ s.stackHigh.toNat ≤ s.sp.toNat ∧
        t.faultInfo = zext9 s.sp)))

/-- R107: a step reports the first fault in the fixed order of the checks, and faults only where that order finds
one. -/
def Obligations.FirstFaultOfThePriorityWins : Prop :=
  ∀ s : State, s.runState = .running →
    (∀ (c : FaultCause) (info : Word9), s.stepFault = some (c, info) → step s = .next (s.faultedWith c info)) ∧
    (s.stepFault = none → ∃ t : State, step s = .next t ∧ t.runState ≠ .faulted)

/-- R109: a faulting step writes the three fault registers and STATE and nothing else, FAULT_PC being PC. -/
def Obligations.FaultEntryChangesNothingElse : Prop :=
  ∀ s t : State, s.runState = .running → step s = .next t → t.runState = .faulted →
    t = { s with runState := .faulted, faultCause := t.faultCause, faultPc := s.pc, faultInfo := t.faultInfo } ∧
    t.faultCause ≠ .noFault

/-! ### Frames (R24) -/

/-- R24, R32, R46: LDI, ADD, SUB, MUL and DIV change no register but Ra, and no flag, output, limit or byte of memory.
STATE and the fault registers stay, but for a fault entry. -/
def Obligations.RegisterResultInstructionsFrame : Prop :=
  ∀ (ra rb : Byte) (i : Instr) (s t : State),
    i ∈ [.ldi ra rb, .add ra rb, .sub ra rb, .mul ra rb, .div ra rb] → exec i s = .next t →
    (∀ r : RegIdx, ra ≠ regByte r → t.reg r = s.reg r) ∧ t.fl = s.fl ∧ t.output = s.output ∧
      (∀ a : Nat, t.mem.read a = s.mem.read a) ∧ t.stackLow = s.stackLow ∧ t.stackHigh = s.stackHigh ∧
      ((t.runState = s.runState ∧ t.faultCause = s.faultCause ∧ t.faultPc = s.faultPc ∧ t.faultInfo = s.faultInfo) ∨
        ∃ c info, t = s.faultedWith c info)

/-- R24, R32, R43, R46: PRN, CMP, JEQ, JNE, JMP and HLT change no register and no byte of memory; only CMP changes FL,
only PRN the output, only HLT the STATE, but for a fault entry. -/
def Obligations.ReadingInstructionsFrame : Prop :=
  ∀ (ra rb : Byte) (i : Instr) (s t : State),
    i ∈ [.prn ra, .cmp ra rb, .jeq ra, .jne ra, .jmp ra, .hlt] → exec i s = .next t →
    t.regs = s.regs ∧ (∀ a : Nat, t.mem.read a = s.mem.read a) ∧ t.stackLow = s.stackLow ∧
      t.stackHigh = s.stackHigh ∧ (i ≠ .cmp ra rb → t.fl = s.fl) ∧ (i ≠ .prn ra → t.output = s.output) ∧
      ((t.faultCause = s.faultCause ∧ t.faultPc = s.faultPc ∧ t.faultInfo = s.faultInfo ∧
          (i ≠ .hlt → t.runState = s.runState)) ∨
        ∃ c info, t = s.faultedWith c info)

/-- R24, R98: PUSH changes no register but SP, and no byte of memory but the one at the address it stores to. -/
def Obligations.PushFrame : Prop :=
  ∀ (ra : Byte) (s t : State), exec (.push ra) s = .next t →
    (∀ r : RegIdx, r ≠ 7 → t.reg r = s.reg r) ∧ t.fl = s.fl ∧ t.output = s.output ∧
      (∀ a : Nat, a ≠ (pushAddr s).toNat → t.mem.read a = s.mem.read a) ∧
      t.stackLow = s.stackLow ∧ t.stackHigh = s.stackHigh ∧
      ((t.runState = s.runState ∧ t.faultCause = s.faultCause ∧ t.faultPc = s.faultPc ∧ t.faultInfo = s.faultInfo) ∨
        ∃ c info, t = s.faultedWith c info)

/-- R24, R99: POP changes no register but SP and Ra, and no byte of memory. -/
def Obligations.PopFrame : Prop :=
  ∀ (ra : Byte) (s t : State), exec (.pop ra) s = .next t →
    (∀ r : RegIdx, r ≠ 7 → ra ≠ regByte r → t.reg r = s.reg r) ∧ t.fl = s.fl ∧ t.output = s.output ∧
      (∀ a : Nat, t.mem.read a = s.mem.read a) ∧ t.stackLow = s.stackLow ∧ t.stackHigh = s.stackHigh ∧
      ((t.runState = s.runState ∧ t.faultCause = s.faultCause ∧ t.faultPc = s.faultPc ∧ t.faultInfo = s.faultInfo) ∨
        ∃ c info, t = s.faultedWith c info)

/-! ### What an instruction reads (R24) -/

/-- R24, the "registers read" column: the value of a register the instruction does not read changes nothing of what it
does. That register itself ends with the same value in both runs (the instruction wrote it) or is left alone in
both. -/
def Obligations.UnreadRegistersHaveNoInfluence : Prop :=
  ∀ (i : Instr) (s : State) (r : RegIdx) (v : Byte), i.readsReg r = false →
    ∃ t u : State, exec i s = .next t ∧ exec i (s.setReg r v) = .next u ∧
      (∀ q : RegIdx, q ≠ r → u.reg q = t.reg q) ∧ (u.reg r = t.reg r ∨ (t.reg r = s.reg r ∧ u.reg r = v)) ∧
      { u with regs := t.regs } = t

/-- R24, the "other state read" column: memory is read by POP alone, and only at the address SP holds. -/
def Obligations.OnlyPopReadsMemory : Prop :=
  ∀ (i : Instr) (s : State) (m : Memory),
    ((∃ ra, i = .pop ra) → m.read s.sp.toNat = s.mem.read s.sp.toNat) →
    ∃ t u : State, exec i s = .next t ∧ exec i { s with mem := m } = .next u ∧
      { u with mem := t.mem } = t

/-- The output log, STATE's former values and the fault registers are read by no instruction: `exec` on states that
differ in them alone differs in them alone (R36, R43). -/
def Obligations.FaultRegistersAndOutputAreNotRead : Prop :=
  ∀ (i : Instr) (s : State) (out : List Byte) (c : FaultCause) (p info : Word9),
    ∃ t u : State, exec i s = .next t ∧
      exec i { s with output := out, faultCause := c, faultPc := p, faultInfo := info } = .next u ∧
      { u with output := t.output, faultCause := t.faultCause, faultPc := t.faultPc, faultInfo := t.faultInfo } = t ∧
      (∃ vs : List Byte, t.output = s.output ++ vs ∧ u.output = out ++ vs)

/-- R34: STATE is 0 for Running, 1 for Halted, 2 for Faulted and never 3, Running at first, and the host reads it
so (R73). -/
def Obligations.HostReadsStateByItsCode : Prop :=
  RunState.running.code = 0#2 ∧ RunState.halted.code = 1#2 ∧ RunState.faulted.code = 2#2 ∧
    (∀ r : RunState, r.code ≠ 3#2) ∧ State.reset.runState = .running ∧
    (∀ s : State, s.outputs = ⟨s.output, s.runState.code, s.faultCause.code, s.faultPc, s.faultInfo⟩)
end

