-- ==== Sys2Proof/Laws/Decode.lean ====
section
/-! SUPPORT. The decoder by its table: the shape of each opcode, which bytes are opcodes, and what `decodeWith`
answers for each shape. -/

namespace Sys2Proof

/-- The constructor of a shape, filled from operand bytes of the right number. -/
def Shape.build : Shape → List Byte → Option Instr
  | .z i, [] => some i
  | .r mk, [a] => some (mk a)
  | .rr mk, [a, b] => some (mk a b)
  | .ri mk, [a, b] => some (mk a b)
  | _, _ => none

/-- The table gives every instruction's opcode the shape that builds it from its operand bytes. -/
theorem shapeOf_opcode (i : Instr) : ∃ sh, shapeOf i.opcode = some sh ∧ sh.build i.operandBytes = some i := by
  cases i <;> exact ⟨_, rfl, rfl⟩

/-- The rows of the table, read backwards. -/
theorem shapeOf_cases {op : Byte} {sh : Shape} (h : shapeOf op = some sh) :
    (op = 0x82#8 ∧ sh = .ri .ldi) ∨ (op = 0x47#8 ∧ sh = .r .prn) ∨ (op = 0x01#8 ∧ sh = .z .hlt) ∨
      (op = 0x45#8 ∧ sh = .r .push) ∨ (op = 0x46#8 ∧ sh = .r .pop) ∨ (op = 0xA2#8 ∧ sh = .rr .mul) ∨
      (op = 0xA3#8 ∧ sh = .rr .div) ∨ (op = 0xA0#8 ∧ sh = .rr .add) ∨ (op = 0xA1#8 ∧ sh = .rr .sub) ∨
      (op = 0xA7#8 ∧ sh = .rr .cmp) ∨ (op = 0x55#8 ∧ sh = .r .jeq) ∨ (op = 0x56#8 ∧ sh = .r .jne) ∨
      (op = 0x54#8 ∧ sh = .r .jmp) := by
  unfold shapeOf at h
  split at h <;> simp_all

/-- What the decoder does, by the shape of the opcode byte. -/
theorem decodeWith_ok {ε : Type} (illegal : Byte → ε) {byteAt : Nat → Except ε Byte} {op : Byte}
    (h : byteAt 0 = .ok op) :
    decodeWith illegal byteAt =
      match shapeOf op with
      | none => .error (illegal op)
      | some (.z i) => .ok i
      | some (.r mk) => (byteAt 1).bind fun a => .ok (mk a)
      | some (.rr mk) => (byteAt 1).bind fun a => (byteAt 2).bind fun b => .ok (mk a b)
      | some (.ri mk) => (byteAt 1).bind fun a => (byteAt 2).bind fun b => .ok (mk a b) := by
  simp only [decodeWith, h]
  rfl

theorem decodeWith_error {ε : Type} (illegal : Byte → ε) {byteAt : Nat → Except ε Byte} {e : ε}
    (h : byteAt 0 = .error e) : decodeWith illegal byteAt = .error e := by
  simp only [decodeWith, h, bind, Except.bind]

end Sys2Proof

namespace Sys2Proof.Machine

/-- The table's opcodes are the 13 of R66. -/
theorem shapeOf_eq_none {op : Byte} : shapeOf op = none ↔ op ∉ legalOpcodes := by
  constructor
  · intro h hmem
    simp only [legalOpcodes, opcodesZ, opcodesR, opcodesRI, opcodesRR, List.cons_append, List.nil_append,
      List.mem_cons, List.not_mem_nil, or_false] at hmem
    rcases hmem with h' | h' | h' | h' | h' | h' | h' | h' | h' | h' | h' | h' | h' <;> subst h' <;>
      simp [shapeOf] at h
  · intro h
    cases hs : shapeOf op with
    | none => rfl
    | some sh =>
      refine absurd ?_ h
      rcases shapeOf_cases hs with h' | h' | h' | h' | h' | h' | h' | h' | h' | h' | h' | h' | h' <;>
        rw [h'.1] <;> decide

end Sys2Proof.Machine

namespace Sys2Proof

/-- A source that gives the bytes of an instruction decodes to it. -/
theorem decodeWith_of_bytes {ε : Type} (illegal : Byte → ε) {byteAt : Nat → Except ε Byte} {i : Instr}
    (h : ∀ (k : Nat) (b : Byte), (encode i)[k]? = some b → byteAt k = .ok b) :
    decodeWith illegal byteAt = .ok i := by
  have h0 : byteAt 0 = .ok i.opcode := h 0 _ rfl
  rw [decodeWith_ok illegal h0]
  cases i with
  | hlt => rfl
  | prn a | push a | pop a | jeq a | jne a | jmp a =>
    have h1 : byteAt 1 = .ok a := h 1 _ rfl
    simp [shapeOf, Instr.opcode, h1, Except.bind]
  | ldi a b | mul a b | div a b | add a b | sub a b | cmp a b =>
    have h1 : byteAt 1 = .ok a := h 1 _ rfl
    have h2 : byteAt 2 = .ok b := h 2 _ rfl
    simp [shapeOf, Instr.opcode, h1, h2, Except.bind]

/-- What decodes to an instruction gives the bytes of the instruction. -/
theorem bytes_of_decodeWith {ε : Type} {illegal : Byte → ε} {byteAt : Nat → Except ε Byte} {i : Instr}
    (h : decodeWith illegal byteAt = .ok i) (k : Nat) (b : Byte) (hk : (encode i)[k]? = some b) :
    byteAt k = .ok b := by
  cases h0 : byteAt 0 with
  | error e => rw [decodeWith_error illegal h0] at h; cases h
  | ok op =>
    rw [decodeWith_ok illegal h0] at h
    cases hs : shapeOf op with
    | none => rw [hs] at h; cases h
    | some sh =>
      rw [hs] at h
      rcases shapeOf_cases hs with h' | h' | h' | h' | h' | h' | h' | h' | h' | h' | h' | h' | h' <;>
        obtain ⟨rfl, rfl⟩ := h' <;> cases h1 : byteAt 1 <;> cases h2 : byteAt 2 <;>
        simp only [h1, h2, Except.bind, Except.ok.injEq, reduceCtorEq] at h <;> subst h <;>
        rcases k with _ | _ | _ | k <;>
        simp_all [encode, Instr.opcode, Instr.operandBytes]

end Sys2Proof

namespace Sys2Proof.Machine

/-- A legal opcode with enough operand bytes makes an instruction (R58, R64). -/
theorem exists_instr_of_legal {op : Byte} (h : op ∈ legalOpcodes) (b1 b2 : Byte) :
    ∃ i : Instr, i.opcode = op ∧ i.operandBytes = [b1, b2].take (operandCount op) := by
  simp only [legalOpcodes, opcodesZ, opcodesR, opcodesRI, opcodesRR, List.cons_append, List.nil_append,
    List.mem_cons, List.not_mem_nil, or_false] at h
  rcases h with rfl | rfl | rfl | rfl | rfl | rfl | rfl | rfl | rfl | rfl | rfl | rfl | rfl
  · exact ⟨.hlt, rfl, rfl⟩
  · exact ⟨.push b1, rfl, rfl⟩
  · exact ⟨.pop b1, rfl, rfl⟩
  · exact ⟨.prn b1, rfl, rfl⟩
  · exact ⟨.jmp b1, rfl, rfl⟩
  · exact ⟨.jeq b1, rfl, rfl⟩
  · exact ⟨.jne b1, rfl, rfl⟩
  · exact ⟨.ldi b1 b2, rfl, rfl⟩
  · exact ⟨.add b1 b2, rfl, rfl⟩
  · exact ⟨.sub b1 b2, rfl, rfl⟩
  · exact ⟨.mul b1 b2, rfl, rfl⟩
  · exact ⟨.div b1 b2, rfl, rfl⟩
  · exact ⟨.cmp b1 b2, rfl, rfl⟩

theorem opcode_mem_legal (i : Instr) : i.opcode ∈ legalOpcodes := by
  refine Classical.byContradiction fun h => ?_
  obtain ⟨sh, hs, -⟩ := shapeOf_opcode i
  rw [shapeOf_eq_none.mpr h] at hs
  cases hs

theorem length_operandBytes (i : Instr) : i.operandBytes.length = operandCount i.opcode := by
  cases i <;> rfl

theorem operandCount_le (op : Byte) : operandCount op ≤ 2 := by
  unfold operandCount
  split
  · omega
  · split <;> omega

end Sys2Proof.Machine
end

