-- ==== Sys2Proof/Laws/Memory.lean ====
section
/-! SUPPORT. Reads after writes of memory, and the canonical form that every memory operation keeps. -/

namespace Sys2Proof.Machine.Memory

@[simp] theorem read_nil (k : Nat) : read [] k = Config.blankByte := rfl

/-- Below the first cell of a canonical memory nothing is listed. -/
theorem read_below {lo : Nat} {m : Memory} (h : wfFrom lo m = true) {k : Nat} (hk : k < lo) :
    read m k = Config.blankByte := by
  induction m generalizing lo with
  | nil => rfl
  | cons c m ih =>
    obtain ⟨a, v⟩ := c
    simp only [wfFrom, Bool.and_eq_true, decide_eq_true_eq] at h
    have : a ≠ k := by omega
    simp only [read, this, if_false]
    exact ih h.2 (by omega)

theorem wfFrom_mono {lo lo' : Nat} {m : Memory} (h : wfFrom lo m = true) (hl : lo' ≤ lo) :
    wfFrom lo' m = true := by
  cases m with
  | nil => rfl
  | cons c m =>
    obtain ⟨a, v⟩ := c
    simp only [wfFrom, Bool.and_eq_true, decide_eq_true_eq] at h ⊢
    exact ⟨⟨⟨by omega, h.1.1.2⟩, h.1.2⟩, h.2⟩

/-- A write leaves every other address alone, in any memory. -/
theorem read_write_ne (m : Memory) {a k : Nat} (v : Byte) (h : k ≠ a) : read (write m a v) k = read m k := by
  induction m with
  | nil => by_cases hv : v = Config.blankByte <;> simp [write, read, hv, h.symm]
  | cons c m ih =>
    obtain ⟨b, w⟩ := c
    by_cases h1 : a < b
    · by_cases hv : v = Config.blankByte <;> simp [write, read, h1, hv, h.symm]
    · by_cases h2 : a = b
      · subst h2
        by_cases hv : v = Config.blankByte <;> simp [write, read, hv, h.symm]
      · simp [write, read, h1, h2, ih]

/-- A read after a write to the same place gives the value written. -/
theorem read_write_self_from {lo : Nat} {m : Memory} (h : wfFrom lo m = true) (a : Nat) (v : Byte) :
    read (write m a v) a = v := by
  induction m generalizing lo with
  | nil => by_cases hv : v = Config.blankByte <;> simp [write, read, hv]
  | cons c m ih =>
    obtain ⟨b, w⟩ := c
    simp only [wfFrom, Bool.and_eq_true, decide_eq_true_eq] at h
    by_cases h1 : a < b
    · by_cases hv : v = Config.blankByte
      · have : b ≠ a := by omega
        simp [write, read, h1, hv, this, read_below h.2 (show a < b + 1 by omega)]
      · simp [write, read, h1, hv]
    · by_cases h2 : a = b
      · subst h2
        by_cases hv : v = Config.blankByte
        · simp [write, hv, read_below h.2 (show a < a + 1 by omega)]
        · simp [write, read, hv]
      · have : b ≠ a := fun e => h2 e.symm
        simp [write, read, h1, h2, this, ih h.2]

theorem read_write_self {m : Memory} (h : m.wf = true) (a : Nat) (v : Byte) : read (write m a v) a = v :=
  read_write_self_from h a v

/-- A write keeps the canonical form. -/
theorem wfFrom_write {lo : Nat} {m : Memory} (h : wfFrom lo m = true) {a : Nat} (v : Byte) (hlo : lo ≤ a)
    (ha : a < Config.memSize) : wfFrom lo (write m a v) = true := by
  induction m generalizing lo with
  | nil => by_cases hv : v = Config.blankByte <;> simp [write, wfFrom, hv, hlo, ha]
  | cons c m ih =>
    obtain ⟨b, w⟩ := c
    have hw := h
    simp only [wfFrom, Bool.and_eq_true, decide_eq_true_eq] at hw
    by_cases h1 : a < b
    · by_cases hv : v = Config.blankByte
      · simpa [write, h1, hv] using h
      · simp only [write, h1, hv, if_true, if_false, wfFrom, Bool.and_eq_true, decide_eq_true_eq]
        exact ⟨⟨⟨hlo, ha⟩, hv⟩, ⟨⟨by omega, hw.1.1.2⟩, hw.1.2⟩, hw.2⟩
    · by_cases h2 : a = b
      · subst h2
        by_cases hv : v = Config.blankByte
        · simpa [write, hv] using wfFrom_mono hw.2 (show lo ≤ a + 1 by omega)
        · simp only [write, h1, hv, if_true, if_false, wfFrom, Bool.and_eq_true, decide_eq_true_eq]
          exact ⟨⟨⟨hlo, ha⟩, hv⟩, hw.2⟩
      · simp only [write, h1, h2, if_false, wfFrom, Bool.and_eq_true, decide_eq_true_eq]
        exact ⟨⟨⟨hw.1.1.1, hw.1.1.2⟩, hw.1.2⟩, ih hw.2 (by omega)⟩

theorem write_wf {m : Memory} (h : m.wf = true) {a : Nat} (v : Byte) (ha : a < Config.memSize) :
    (write m a v).wf = true :=
  wfFrom_write h v (Nat.zero_le a) ha

/-- Storing several bytes keeps the canonical form. -/
theorem writeBytes_wf {m : Memory} (h : m.wf = true) (a : Nat) (bs : List Byte) :
    (writeBytes m a bs).wf = true := by
  induction bs generalizing m a with
  | nil => exact h
  | cons b bs ih =>
    simp only [writeBytes]
    by_cases ha : a < Config.memSize
    · simpa only [ha, if_true] using ih (write_wf h b ha) (a + 1)
    · simpa only [ha, if_false] using ih h (a + 1)

/-- What storing several bytes leaves alone below their first address. -/
theorem read_writeBytes_below (m : Memory) {a k : Nat} (bs : List Byte) (h : k < a) :
    read (writeBytes m a bs) k = read m k := by
  induction bs generalizing m a with
  | nil => rfl
  | cons b bs ih =>
    simp only [writeBytes]
    rw [ih _ (show k < a + 1 by omega)]
    by_cases ha : a < Config.memSize
    · simp only [ha, if_true, read_write_ne m b (show k ≠ a by omega)]
    · simp only [ha, if_false]

@[simp] theorem length_bytesFrom (m : Memory) (a n : Nat) : (bytesFrom m a n).length = n := by
  simp [bytesFrom]

theorem getElem?_bytesFrom (m : Memory) (a : Nat) {n k : Nat} (h : k < n) :
    (bytesFrom m a n)[k]? = some (read m (a + k)) := by
  simp [bytesFrom, h]

end Sys2Proof.Machine.Memory
end

