-- ==== Sys2Proof/Laws/State.lean ====
section
/-! SUPPORT. One lemma per field per update of State, and the register reads after each update, so that no later
proof unfolds a record update. -/

namespace Sys2Proof.Machine

variable (s : State)

/-! ### `State.setReg` -/

@[simp] theorem State.setReg_regs (r : RegIdx) (v : Byte) : (s.setReg r v).regs = s.regs.set r v := rfl
@[simp] theorem State.setReg_pc (r : RegIdx) (v : Byte) : (s.setReg r v).pc = s.pc := rfl
@[simp] theorem State.setReg_fl (r : RegIdx) (v : Byte) : (s.setReg r v).fl = s.fl := rfl
@[simp] theorem State.setReg_runState (r : RegIdx) (v : Byte) : (s.setReg r v).runState = s.runState := rfl
@[simp] theorem State.setReg_faultCause (r : RegIdx) (v : Byte) : (s.setReg r v).faultCause = s.faultCause := rfl
@[simp] theorem State.setReg_faultPc (r : RegIdx) (v : Byte) : (s.setReg r v).faultPc = s.faultPc := rfl
@[simp] theorem State.setReg_faultInfo (r : RegIdx) (v : Byte) : (s.setReg r v).faultInfo = s.faultInfo := rfl
@[simp] theorem State.setReg_output (r : RegIdx) (v : Byte) : (s.setReg r v).output = s.output := rfl
@[simp] theorem State.setReg_mem (r : RegIdx) (v : Byte) : (s.setReg r v).mem = s.mem := rfl
@[simp] theorem State.setReg_stackLow (r : RegIdx) (v : Byte) : (s.setReg r v).stackLow = s.stackLow := rfl
@[simp] theorem State.setReg_stackHigh (r : RegIdx) (v : Byte) : (s.setReg r v).stackHigh = s.stackHigh := rfl

/-- A register read after a register write. -/
theorem State.reg_setReg (r q : RegIdx) (v : Byte) :
    (s.setReg r v).reg q = if r = q then v else s.reg q := by
  simp only [State.reg, State.setReg_regs, Vector.getElem_set, Fin.val_inj]

@[simp] theorem State.reg_setReg_self (r : RegIdx) (v : Byte) : (s.setReg r v).reg r = v := by
  simp [State.reg_setReg]

@[simp] theorem State.reg_setReg_ne {r q : RegIdx} (h : r ≠ q) (v : Byte) :
    (s.setReg r v).reg q = s.reg q := by
  simp [State.reg_setReg, h]

/-! ### `State.setMem` -/

@[simp] theorem State.setMem_regs (a : Nat) (v : Byte) : (s.setMem a v).regs = s.regs := rfl
@[simp] theorem State.setMem_pc (a : Nat) (v : Byte) : (s.setMem a v).pc = s.pc := rfl
@[simp] theorem State.setMem_fl (a : Nat) (v : Byte) : (s.setMem a v).fl = s.fl := rfl
@[simp] theorem State.setMem_runState (a : Nat) (v : Byte) : (s.setMem a v).runState = s.runState := rfl
@[simp] theorem State.setMem_faultCause (a : Nat) (v : Byte) : (s.setMem a v).faultCause = s.faultCause := rfl
@[simp] theorem State.setMem_faultPc (a : Nat) (v : Byte) : (s.setMem a v).faultPc = s.faultPc := rfl
@[simp] theorem State.setMem_faultInfo (a : Nat) (v : Byte) : (s.setMem a v).faultInfo = s.faultInfo := rfl
@[simp] theorem State.setMem_output (a : Nat) (v : Byte) : (s.setMem a v).output = s.output := rfl
@[simp] theorem State.setMem_mem (a : Nat) (v : Byte) : (s.setMem a v).mem = s.mem.write a v := rfl
@[simp] theorem State.setMem_stackLow (a : Nat) (v : Byte) : (s.setMem a v).stackLow = s.stackLow := rfl
@[simp] theorem State.setMem_stackHigh (a : Nat) (v : Byte) : (s.setMem a v).stackHigh = s.stackHigh := rfl
@[simp] theorem State.setMem_reg (a : Nat) (v : Byte) (q : RegIdx) : (s.setMem a v).reg q = s.reg q := rfl
@[simp] theorem State.setMem_sp (a : Nat) (v : Byte) : (s.setMem a v).sp = s.sp := rfl

/-! ### `State.setFl` -/

@[simp] theorem State.setFl_regs (f : FlagState) : (s.setFl f).regs = s.regs := rfl
@[simp] theorem State.setFl_pc (f : FlagState) : (s.setFl f).pc = s.pc := rfl
@[simp] theorem State.setFl_fl (f : FlagState) : (s.setFl f).fl = f := rfl
@[simp] theorem State.setFl_runState (f : FlagState) : (s.setFl f).runState = s.runState := rfl
@[simp] theorem State.setFl_faultCause (f : FlagState) : (s.setFl f).faultCause = s.faultCause := rfl
@[simp] theorem State.setFl_faultPc (f : FlagState) : (s.setFl f).faultPc = s.faultPc := rfl
@[simp] theorem State.setFl_faultInfo (f : FlagState) : (s.setFl f).faultInfo = s.faultInfo := rfl
@[simp] theorem State.setFl_output (f : FlagState) : (s.setFl f).output = s.output := rfl
@[simp] theorem State.setFl_mem (f : FlagState) : (s.setFl f).mem = s.mem := rfl
@[simp] theorem State.setFl_stackLow (f : FlagState) : (s.setFl f).stackLow = s.stackLow := rfl
@[simp] theorem State.setFl_stackHigh (f : FlagState) : (s.setFl f).stackHigh = s.stackHigh := rfl
@[simp] theorem State.setFl_reg (f : FlagState) (q : RegIdx) : (s.setFl f).reg q = s.reg q := rfl
@[simp] theorem State.setFl_sp (f : FlagState) : (s.setFl f).sp = s.sp := rfl

/-! ### `State.emit` -/

@[simp] theorem State.emit_regs (v : Byte) : (s.emit v).regs = s.regs := rfl
@[simp] theorem State.emit_pc (v : Byte) : (s.emit v).pc = s.pc := rfl
@[simp] theorem State.emit_fl (v : Byte) : (s.emit v).fl = s.fl := rfl
@[simp] theorem State.emit_runState (v : Byte) : (s.emit v).runState = s.runState := rfl
@[simp] theorem State.emit_faultCause (v : Byte) : (s.emit v).faultCause = s.faultCause := rfl
@[simp] theorem State.emit_faultPc (v : Byte) : (s.emit v).faultPc = s.faultPc := rfl
@[simp] theorem State.emit_faultInfo (v : Byte) : (s.emit v).faultInfo = s.faultInfo := rfl
@[simp] theorem State.emit_output (v : Byte) : (s.emit v).output = s.output ++ [v] := rfl
@[simp] theorem State.emit_mem (v : Byte) : (s.emit v).mem = s.mem := rfl
@[simp] theorem State.emit_stackLow (v : Byte) : (s.emit v).stackLow = s.stackLow := rfl
@[simp] theorem State.emit_stackHigh (v : Byte) : (s.emit v).stackHigh = s.stackHigh := rfl
@[simp] theorem State.emit_reg (v : Byte) (q : RegIdx) : (s.emit v).reg q = s.reg q := rfl
@[simp] theorem State.emit_sp (v : Byte) : (s.emit v).sp = s.sp := rfl

/-! ### `State.setRunState` -/

@[simp] theorem State.setRunState_regs (r : RunState) : (s.setRunState r).regs = s.regs := rfl
@[simp] theorem State.setRunState_pc (r : RunState) : (s.setRunState r).pc = s.pc := rfl
@[simp] theorem State.setRunState_fl (r : RunState) : (s.setRunState r).fl = s.fl := rfl
@[simp] theorem State.setRunState_runState (r : RunState) : (s.setRunState r).runState = r := rfl
@[simp] theorem State.setRunState_faultCause (r : RunState) : (s.setRunState r).faultCause = s.faultCause := rfl
@[simp] theorem State.setRunState_faultPc (r : RunState) : (s.setRunState r).faultPc = s.faultPc := rfl
@[simp] theorem State.setRunState_faultInfo (r : RunState) : (s.setRunState r).faultInfo = s.faultInfo := rfl
@[simp] theorem State.setRunState_output (r : RunState) : (s.setRunState r).output = s.output := rfl
@[simp] theorem State.setRunState_mem (r : RunState) : (s.setRunState r).mem = s.mem := rfl
@[simp] theorem State.setRunState_stackLow (r : RunState) : (s.setRunState r).stackLow = s.stackLow := rfl
@[simp] theorem State.setRunState_stackHigh (r : RunState) : (s.setRunState r).stackHigh = s.stackHigh := rfl
@[simp] theorem State.setRunState_reg (r : RunState) (q : RegIdx) : (s.setRunState r).reg q = s.reg q := rfl
@[simp] theorem State.setRunState_sp (r : RunState) : (s.setRunState r).sp = s.sp := rfl

/-! ### `State.setPc` -/

@[simp] theorem State.setPc_regs (p : Word9) : (s.setPc p).regs = s.regs := rfl
@[simp] theorem State.setPc_pc (p : Word9) : (s.setPc p).pc = p := rfl
@[simp] theorem State.setPc_fl (p : Word9) : (s.setPc p).fl = s.fl := rfl
@[simp] theorem State.setPc_runState (p : Word9) : (s.setPc p).runState = s.runState := rfl
@[simp] theorem State.setPc_faultCause (p : Word9) : (s.setPc p).faultCause = s.faultCause := rfl
@[simp] theorem State.setPc_faultPc (p : Word9) : (s.setPc p).faultPc = s.faultPc := rfl
@[simp] theorem State.setPc_faultInfo (p : Word9) : (s.setPc p).faultInfo = s.faultInfo := rfl
@[simp] theorem State.setPc_output (p : Word9) : (s.setPc p).output = s.output := rfl
@[simp] theorem State.setPc_mem (p : Word9) : (s.setPc p).mem = s.mem := rfl
@[simp] theorem State.setPc_stackLow (p : Word9) : (s.setPc p).stackLow = s.stackLow := rfl
@[simp] theorem State.setPc_stackHigh (p : Word9) : (s.setPc p).stackHigh = s.stackHigh := rfl
@[simp] theorem State.setPc_reg (p : Word9) (q : RegIdx) : (s.setPc p).reg q = s.reg q := rfl
@[simp] theorem State.setPc_sp (p : Word9) : (s.setPc p).sp = s.sp := rfl

/-! ### `takeFault` -/

@[simp] theorem takeFault_regs (r : Raise) : (takeFault r s).regs = s.regs := rfl
@[simp] theorem takeFault_pc (r : Raise) : (takeFault r s).pc = s.pc := rfl
@[simp] theorem takeFault_fl (r : Raise) : (takeFault r s).fl = s.fl := rfl
@[simp] theorem takeFault_runState (r : Raise) : (takeFault r s).runState = .faulted := rfl
@[simp] theorem takeFault_faultCause (r : Raise) : (takeFault r s).faultCause = r.cause := rfl
@[simp] theorem takeFault_faultPc (r : Raise) : (takeFault r s).faultPc = s.pc := rfl
@[simp] theorem takeFault_faultInfo (r : Raise) : (takeFault r s).faultInfo = r.info := rfl
@[simp] theorem takeFault_output (r : Raise) : (takeFault r s).output = s.output := rfl
@[simp] theorem takeFault_mem (r : Raise) : (takeFault r s).mem = s.mem := rfl
@[simp] theorem takeFault_stackLow (r : Raise) : (takeFault r s).stackLow = s.stackLow := rfl
@[simp] theorem takeFault_stackHigh (r : Raise) : (takeFault r s).stackHigh = s.stackHigh := rfl
@[simp] theorem takeFault_reg (r : Raise) (q : RegIdx) : (takeFault r s).reg q = s.reg q := rfl
@[simp] theorem takeFault_sp (r : Raise) : (takeFault r s).sp = s.sp := rfl

end Sys2Proof.Machine
end

