-- ==== Sys2Proof/Laws/Ops.lean ====
section
/-! SUPPORT. One lemma per shared operation that says everything it can do: operand checks, range checks, commit
and the end of a step, the ALU's rule and the jumps' rule. Later proofs cite these instead of unfolding. -/

namespace Sys2Proof.Machine

/-! ### Register bytes -/

@[simp] theorem toNat_regByte (r : RegIdx) : (regByte r).toNat = r.val := by
  have := r.isLt
  simp only [BitVec.toNat_ofNat]
  omega

theorem regByte_inj {a b : RegIdx} (h : regByte a = regByte b) : a = b := by
  have := congrArg BitVec.toNat h
  rw [toNat_regByte, toNat_regByte] at this
  exact Fin.ext this

/-- A byte names a register or is above 7. -/
theorem regByte_or_bad (b : Byte) : (∃ r, b = regByte r) ∨ 7 < b.toNat := by
  by_cases h : b.toNat < 8
  · exact .inl ⟨⟨b.toNat, h⟩, BitVec.eq_of_toNat_eq (by rw [toNat_regByte])⟩
  · exact .inr (by omega)

@[simp] theorem regIndex_regByte (r : RegIdx) : regIndex (regByte r) = .ok r := by
  have h : (regByte r).toNat < 8 := by rw [toNat_regByte]; exact r.isLt
  simp only [regIndex, h, dif_pos]
  exact congrArg _ (Fin.ext (toNat_regByte r))

theorem regIndex_bad {b : Byte} (h : 7 < b.toNat) : regIndex b = .error (.invalidRegister b) := by
  have : ¬ b.toNat < 8 := by omega
  simp [regIndex, this]

@[simp] theorem regPair_regByte (a b : RegIdx) : regPair (regByte a) (regByte b) = .ok (a, b) := by
  simp [regPair, bind, Except.bind]

theorem regPair_bad_first {ra : Byte} (rb : Byte) (h : 7 < ra.toNat) :
    regPair ra rb = .error (.invalidRegister ra) := by
  simp [regPair, regIndex_bad h, bind, Except.bind]

theorem regPair_bad_second (a : RegIdx) {rb : Byte} (h : 7 < rb.toNat) :
    regPair (regByte a) rb = .error (.invalidRegister rb) := by
  simp [regPair, regIndex_bad h, bind, Except.bind]

theorem isRegByte_eq_false {b : Byte} : isRegByte b = false ↔ 7 < b.toNat := by
  simp [isRegByte]

@[simp] theorem isRegByte_regByte (r : RegIdx) : isRegByte (regByte r) = true := by
  have := r.isLt
  simp only [isRegByte, toNat_regByte, decide_eq_true_eq]
  omega

/-! ### Range checks (R40, R48) -/

theorem checkRange_in {a : Word9} (h : a.toNat ≤ 255) : checkRange a = .ok a.toNat := by
  simp [checkRange, h]

theorem checkRange_out {a : Word9} (h : 255 < a.toNat) : checkRange a = .error (.addressOutOfRange a) := by
  have : ¬ a.toNat ≤ 255 := by omega
  simp [checkRange, this]

@[simp] theorem toNat_zext9 (b : Byte) : (zext9 b).toNat = b.toNat := by
  simp only [BitVec.toNat_setWidth]
  have := b.isLt
  omega

/-- An 8-bit address is always in range (R48). -/
@[simp] theorem checkRange_zext9 (b : Byte) : checkRange (zext9 b) = .ok b.toNat := by
  have := b.isLt
  rw [checkRange_in (by rw [toNat_zext9]; omega), toNat_zext9]

theorem memRead_in (s : State) {a : Word9} (h : a.toNat ≤ 255) : memRead s a = .ok (s.mem.read a.toNat) := by
  simp [memRead, checkRange_in h, bind, Except.bind]

theorem memRead_out (s : State) {a : Word9} (h : 255 < a.toNat) :
    memRead s a = .error (.addressOutOfRange a) := by
  simp [memRead, checkRange_out h, bind, Except.bind]

@[simp] theorem memRead_zext9 (s : State) (b : Byte) : memRead s (zext9 b) = .ok (s.mem.read b.toNat) := by
  have := b.isLt
  rw [memRead_in s (by rw [toNat_zext9]; omega), toNat_zext9]

/-! ### The end of a step (R82) -/

@[simp] theorem finish_ok (s : State) (e : Effect) : finish s (.ok e) = .next (commit e s) := rfl

@[simp] theorem finish_error (s : State) (f : Raise) : finish s (.error f) = .next (takeFault f s) := rfl

/-- Every end of a step is a next state: a commit, or a fault entry. -/
theorem finish_cases {s t : State} {r : Except Raise Effect} (h : finish s r = .next t) :
    (∃ e, r = .ok e ∧ t = commit e s) ∨ (∃ f, r = .error f ∧ t = takeFault f s) := by
  cases r with
  | ok e => exact .inl ⟨e, rfl, by simpa using h.symm⟩
  | error f => exact .inr ⟨f, rfl, by simpa using h.symm⟩

theorem finish_next (s : State) (r : Except Raise Effect) : ∃ t, finish s r = .next t := by
  cases r with
  | ok e => exact ⟨_, rfl⟩
  | error f => exact ⟨_, rfl⟩

@[simp] theorem commit_nil (p : Word9) (s : State) : commit ⟨[], p⟩ s = s.setPc p := rfl

@[simp] theorem commit_one (w : Write) (p : Word9) (s : State) :
    commit ⟨[w], p⟩ s = (applyWrite s w).setPc p := rfl

@[simp] theorem commit_two (w w' : Write) (p : Word9) (s : State) :
    commit ⟨[w, w'], p⟩ s = (applyWrite (applyWrite s w) w').setPc p := rfl

/-! ### The ALU's rule (R81, R89) -/

theorem aluEffect_bad_first (sel : AluSelector) {ra : Byte} (rb : Byte) (s : State) (h : 7 < ra.toNat) :
    aluEffect sel ra rb s = .error (.invalidRegister ra) := by
  simp [aluEffect, regPair_bad_first rb h, bind, Except.bind]

theorem aluEffect_bad_second (sel : AluSelector) (a : RegIdx) {rb : Byte} (s : State) (h : 7 < rb.toNat) :
    aluEffect sel (regByte a) rb s = .error (.invalidRegister rb) := by
  simp [aluEffect, regPair_bad_second a h, bind, Except.bind]

/-- On two legal register bytes the rule is the ALU's answer on the two register values. -/
theorem aluEffect_regByte (sel : AluSelector) (a b : RegIdx) (s : State) :
    aluEffect sel (regByte a) (regByte b) s =
      match alu sel (s.reg a) (s.reg b) with
      | .result v => .ok ⟨[.reg a v], s.pcPlus 3⟩
      | .flags f => .ok ⟨[.fl f], s.pcPlus 3⟩
      | .divisionByZero => .error (.divisionByZero b)
      | .unsupportedOperation => .error .unsupportedOperation := by
  simp only [aluEffect, regPair_regByte]
  rfl

/-! ### The jumps' rule (R100) -/

theorem jumpEffect_bad (taken : Bool) {ra : Byte} (s : State) (h : 7 < ra.toNat) :
    jumpEffect taken ra s = .error (.invalidRegister ra) := by
  simp [jumpEffect, regIndex_bad h, bind, Except.bind]

@[simp] theorem jumpEffect_regByte (taken : Bool) (a : RegIdx) (s : State) :
    jumpEffect taken (regByte a) s = .ok ⟨[], if taken then zext9 (s.reg a) else s.pcPlus 2⟩ := by
  simp [jumpEffect, bind, Except.bind]

end Sys2Proof.Machine
end

