-- ==== Sys2Proof/Laws/PerInstr.lean ====
section
/-! SUPPORT. The per-instruction families of LAWS.json. `OpcodeFields`: the pattern of R65 in the opcode bits, and
the length of R58, for every instruction as syntax. -/

namespace Sys2Proof.Laws.OpcodeFields

/-- The five ALU instructions (R65). -/
def isAlu : Instr → Bool
  | .add _ _ | .sub _ _ | .mul _ _ | .div _ _ | .cmp _ _ => true
  | .ldi _ _ | .prn _ | .hlt | .push _ | .pop _ | .jeq _ | .jne _ | .jmp _ => false

/-- The three jumps (R65). -/
def isJump : Instr → Bool
  | .jeq _ | .jne _ | .jmp _ => true
  | .ldi _ _ | .prn _ | .hlt | .push _ | .pop _ | .add _ _ | .sub _ _ | .mul _ _ | .div _ _ | .cmp _ _ => false

/-- Bits 7:6, bit 5 and bit 4 of an opcode byte. -/
def fields (op : Byte) : Nat × Bool × Bool := ((op >>> 6).toNat, op.getLsbD 5, op.getLsbD 4)

/-- R58, R65: the encoding is one opcode byte and the operand bytes; bits 7:6 of the opcode are the operand count,
bit 5 is set for the ALU instructions alone, and bit 4 for the jumps alone. -/
def Statement (i : Instr) : Prop :=
  (encode i).length = i.length ∧ fields i.opcode = (i.operandBytes.length, isAlu i, isJump i)

theorem of_row {i : Instr} (op : Byte) (n : Nat) (alu jump : Bool) (ho : i.opcode = op)
    (hn : i.operandBytes.length = n) (ha : isAlu i = alu) (hj : isJump i = jump)
    (h : fields op = (n, alu, jump)) : Statement i := by
  subst ho hn ha hj
  exact ⟨Nat.add_comm _ _, h⟩

theorem ldi (ra imm : Byte) : Statement (.ldi ra imm) :=
  of_row 0x82#8 2 false false rfl rfl rfl rfl (by decide)
theorem prn (ra : Byte) : Statement (.prn ra) :=
  of_row 0x47#8 1 false false rfl rfl rfl rfl (by decide)
theorem hlt : Statement .hlt :=
  of_row 0x01#8 0 false false rfl rfl rfl rfl (by decide)
theorem push (ra : Byte) : Statement (.push ra) :=
  of_row 0x45#8 1 false false rfl rfl rfl rfl (by decide)
theorem pop (ra : Byte) : Statement (.pop ra) :=
  of_row 0x46#8 1 false false rfl rfl rfl rfl (by decide)
theorem mul (ra rb : Byte) : Statement (.mul ra rb) :=
  of_row 0xA2#8 2 true false rfl rfl rfl rfl (by decide)
theorem div (ra rb : Byte) : Statement (.div ra rb) :=
  of_row 0xA3#8 2 true false rfl rfl rfl rfl (by decide)
theorem add (ra rb : Byte) : Statement (.add ra rb) :=
  of_row 0xA0#8 2 true false rfl rfl rfl rfl (by decide)
theorem sub (ra rb : Byte) : Statement (.sub ra rb) :=
  of_row 0xA1#8 2 true false rfl rfl rfl rfl (by decide)
theorem cmp (ra rb : Byte) : Statement (.cmp ra rb) :=
  of_row 0xA7#8 2 true false rfl rfl rfl rfl (by decide)
theorem jeq (ra : Byte) : Statement (.jeq ra) :=
  of_row 0x55#8 1 false true rfl rfl rfl rfl (by decide)
theorem jne (ra : Byte) : Statement (.jne ra) :=
  of_row 0x56#8 1 false true rfl rfl rfl rfl (by decide)
theorem jmp (ra : Byte) : Statement (.jmp ra) :=
  of_row 0x54#8 1 false true rfl rfl rfl rfl (by decide)

end Sys2Proof.Laws.OpcodeFields
end

