-- ==== Sys2Proof/Laws/Step.lean ====
section
/-! SUPPORT. What the fetch unit and the step can do, said once. -/

namespace Sys2Proof.Machine

/-! ### Fetch (R76, R78) -/

/-- An address `pc + k` that does not leave the 9 bits is what it says. -/
theorem toNat_pcPlus (s : State) {k : Nat} (h : s.pc.toNat + k < 512) : (s.pcPlus k).toNat = s.pc.toNat + k := by
  simp only [State.pcPlus, BitVec.toNat_add, BitVec.toNat_ofNat]
  omega

theorem fetchByte_in (s : State) {k : Nat} (h : s.pc.toNat + k ≤ 255) : fetchByte s k = .ok (s.codeByte k) := by
  have hn := toNat_pcPlus s (show s.pc.toNat + k < 512 by omega)
  rw [fetchByte, memRead_in s (by omega), hn, State.codeByte]

theorem fetchByte_out (s : State) {k : Nat} (h : 255 < s.pc.toNat + k) (h' : s.pc.toNat + k < 512) :
    fetchByte s k = .error (.addressOutOfRange (s.pcPlus k)) := by
  rw [fetchByte, memRead_out s (by rw [toNat_pcPlus s h']; exact h)]

/-- The opcode fetch above 255. -/
theorem fetch_past_end (s : State) (h : 255 < s.pc.toNat) : fetch s = .error (.addressOutOfRange s.pc) := by
  have := fetchByte_out s (k := 0) h s.pc.isLt
  rw [fetch, decodeWith_error _ this]
  simp [State.pcPlus]

/-- Instruction bytes in memory at PC are fetched as the instruction. -/
theorem fetch_of_bytes {s : State} {i : Instr}
    (h : ∀ k, k < (encode i).length → s.pc.toNat + k ≤ 255 ∧ (encode i)[k]? = some (s.codeByte k)) :
    fetch s = .ok i := by
  refine decodeWith_of_bytes _ fun k b hk => ?_
  have hlt : k < (encode i).length := (List.getElem?_eq_some_iff.mp hk).1
  obtain ⟨hr, hc⟩ := h k hlt
  rw [fetchByte_in s hr]
  rw [hk] at hc
  exact congrArg _ (Option.some.inj hc).symm

/-- A fetched instruction's bytes lie in memory at PC. -/
theorem bytes_of_fetch {s : State} {i : Instr} (h : fetch s = .ok i) :
    s.pc.toNat ≤ 255 ∧
      ∀ k, k < (encode i).length → s.pc.toNat + k ≤ 255 ∧ (encode i)[k]? = some (s.codeByte k) := by
  have hpc : s.pc.toNat ≤ 255 := by
    refine Nat.le_of_not_lt fun hgt => ?_
    rw [fetch_past_end s hgt] at h
    cases h
  have hlen : (encode i).length ≤ 3 := by cases i <;> simp [encode, Instr.operandBytes]
  refine ⟨hpc, fun k hk => ?_⟩
  have hget : (encode i)[k]? = some (encode i)[k] := List.getElem?_eq_getElem hk
  have hb := bytes_of_decodeWith h k _ hget
  by_cases hr : s.pc.toNat + k ≤ 255
  · rw [fetchByte_in s hr] at hb
    exact ⟨hr, by rw [hget]; exact congrArg _ (Except.ok.inj hb).symm⟩
  · rw [fetchByte_out s (by omega) (by omega)] at hb
    cases hb

/-- A legal opcode in range whose operand bytes run past 255: the first address above is always 256. -/
theorem fetch_operand_past_end {s : State} {i : Instr} (hpc : s.pc.toNat ≤ 255) (hop : s.codeByte 0 = i.opcode)
    (hend : 255 < s.pc.toNat + i.operandBytes.length) : fetch s = .error (.addressOutOfRange 256#9) := by
  have h0 : fetchByte s 0 = .ok i.opcode := by rw [fetchByte_in s hpc, hop]
  have out : ∀ k, k ≤ 2 → s.pc.toNat + k = 256 → fetchByte s k = .error (.addressOutOfRange 256#9) := by
    intro k hk he
    rw [fetchByte_out s (by omega) (by omega)]
    have : s.pcPlus k = 256#9 := BitVec.eq_of_toNat_eq (by rw [toNat_pcPlus s (by omega), he]; rfl)
    rw [this]
  rw [fetch, decodeWith_ok _ h0]
  cases i with
  | hlt => simp only [Instr.operandBytes, List.length_nil] at hend; omega
  | prn a | push a | pop a | jeq a | jne a | jmp a =>
    simp only [Instr.operandBytes, List.length_cons, List.length_nil] at hend
    simp [shapeOf, Instr.opcode, out 1 (by omega) (by omega), Except.bind]
  | ldi a b | mul a b | div a b | add a b | sub a b | cmp a b =>
    simp only [Instr.operandBytes, List.length_cons, List.length_nil] at hend
    by_cases h1 : s.pc.toNat + 1 ≤ 255
    · simp [shapeOf, Instr.opcode, fetchByte_in s h1, out 2 (by omega) (by omega), Except.bind]
    · simp [shapeOf, Instr.opcode, out 1 (by omega) (by omega), Except.bind]

/-- A legal opcode at PC with all its operand bytes in range is fetched. -/
theorem fetch_of_legal {s : State} (hl : s.codeByte 0 ∈ legalOpcodes)
    (hend : s.pc.toNat + operandCount (s.codeByte 0) ≤ 255) :
    ∃ i, fetch s = .ok i ∧ i.opcode = s.codeByte 0 ∧
      i.operandBytes = [s.codeByte 1, s.codeByte 2].take (operandCount (s.codeByte 0)) := by
  obtain ⟨i, hop, hb⟩ := exists_instr_of_legal hl (s.codeByte 1) (s.codeByte 2)
  have hlen : i.operandBytes.length = operandCount (s.codeByte 0) := by rw [length_operandBytes, hop]
  refine ⟨i, fetch_of_bytes fun k hk => ?_, hop, hb⟩
  have hk' : k < operandCount (s.codeByte 0) + 1 := by rw [← hlen]; exact hk
  refine ⟨by omega, ?_⟩
  have hle := operandCount_le (s.codeByte 0)
  rw [encode, hop, hb]
  rcases k with _ | _ | _ | k
  · rfl
  · rw [List.getElem?_cons_succ, List.getElem?_take_of_lt (by omega)]; rfl
  · rw [List.getElem?_cons_succ, List.getElem?_take_of_lt (by omega)]; rfl
  · omega

/-- The three ways a fetch fails, in the order of R107. -/
theorem fetch_error_cases {s : State} {r : Raise} (h : fetch s = .error r) :
    (255 < s.pc.toNat ∧ r = .addressOutOfRange s.pc) ∨
      (s.pc.toNat ≤ 255 ∧ s.codeByte 0 ∉ legalOpcodes ∧ r = .illegalOpcode (s.codeByte 0)) ∨
      (s.pc.toNat ≤ 255 ∧ s.codeByte 0 ∈ legalOpcodes ∧ 255 < s.pc.toNat + operandCount (s.codeByte 0) ∧
        r = .addressOutOfRange 256#9) := by
  by_cases hpc : s.pc.toNat ≤ 255
  · refine .inr ?_
    by_cases hl : s.codeByte 0 ∈ legalOpcodes
    · refine .inr ⟨hpc, hl, ?_⟩
      by_cases hend : 255 < s.pc.toNat + operandCount (s.codeByte 0)
      · obtain ⟨i, hop, -⟩ := exists_instr_of_legal hl (s.codeByte 1) (s.codeByte 2)
        have hout := fetch_operand_past_end hpc hop.symm (by rw [length_operandBytes, hop]; exact hend)
        exact ⟨hend, by rw [hout] at h; exact (Except.error.inj h).symm⟩
      · obtain ⟨i, hok, -⟩ := fetch_of_legal hl (by omega)
        rw [hok] at h
        cases h
    · refine .inl ⟨hpc, hl, ?_⟩
      rw [fetch, decodeWith_ok _ (fetchByte_in s (k := 0) hpc), shapeOf_eq_none.mpr hl] at h
      exact (Except.error.inj h).symm
  · exact .inl ⟨by omega, by rw [fetch_past_end s (by omega)] at h; exact (Except.error.inj h).symm⟩

/-! ### The step (R74, R75) -/

theorem step_of_fetch {s : State} (hr : s.runState = .running) {i : Instr} (h : fetch s = .ok i) :
    step s = exec i s := by
  simp [step, hr, h]

theorem step_of_fetch_error {s : State} (hr : s.runState = .running) {r : Raise} (h : fetch s = .error r) :
    step s = .next (takeFault r s) := by
  simp [step, hr, h]

theorem step_of_not_running {s : State} (hr : s.runState ≠ .running) : step s = .next s := by
  cases h : s.runState <;> simp_all [step]

/-- A run of a machine goes through its first step. -/
theorem run_of_step (M : Host.Core) {s t : M.State} (h : M.step s = .next t) (k : Nat) :
    M.run (k + 1) s = M.run k t := by
  simp only [Host.Core.run, h]

/-- A run of the core goes through its first step. -/
theorem core_run_of_step {s t : State} (h : step s = .next t) (k : Nat) :
    Sys2Proof.core.run (k + 1) s = Sys2Proof.core.run k t :=
  run_of_step Sys2Proof.core h k

/-- Everything a step can do. -/
theorem step_cases {s t : State} (h : step s = .next t) :
    (s.runState ≠ .running ∧ t = s) ∨
      (s.runState = .running ∧ ∃ r, fetch s = .error r ∧ t = takeFault r s) ∨
      (s.runState = .running ∧ ∃ i, fetch s = .ok i ∧ exec i s = .next t) := by
  by_cases hr : s.runState = .running
  · refine .inr ?_
    cases hf : fetch s with
    | error r => exact .inl ⟨hr, r, rfl, by simpa [step_of_fetch_error hr hf] using h.symm⟩
    | ok i => exact .inr ⟨hr, i, rfl, by rwa [step_of_fetch hr hf] at h⟩
  · exact .inl ⟨hr, by simpa [step_of_not_running hr] using h.symm⟩

end Sys2Proof.Machine
end

