-- ==== Sys2Proof/Tests/Slice0.lean ====
section
/-! SUPPORT. The model's own tests: words written from the encoding tables of 30_encoding.md, vectors of
95_test_vectors.md, and for every statement with hypotheses a state that meets them (`witness_…`). -/

namespace Sys2Proof.Tests

open Sys2Proof.Machine Sys2Proof.Assembler

/-! ### Helpers -/

/-- A Running core at `pc` with `regs`, the bytes of `code` from `pc` on, and the reset value of the rest. -/
def coreAt (pc : Word9) (regs : Vector Byte 8) (code : List Byte) : State :=
  { State.reset with pc := pc, regs := regs, mem := Memory.writeBytes [] pc.toNat code }

/-- R0 and R1 given, the other registers at their reset values. -/
def twoRegs (r0 r1 : Byte) : Vector Byte 8 := #v[r0, r1, 0, 0, 0, 0, 0, 0xF4]

/-- R0 and SP given. -/
def withSp (r0 sp : Byte) : Vector Byte 8 := #v[r0, 0, 0, 0, 0, 0, 0, sp]

/-- The state an outcome answers; `State.reset` for a stop, which no test meets. -/
def stateOf : Host.Outcome State Fault Refusal → State
  | .next s => s
  | .fault _ => State.reset
  | .refused _ => State.reset

/-- The state after one step. -/
def after (s : State) : State := stateOf (step s)

/-! ### WellFormed refuses each ill-formed register byte (R25, R67) -/

theorem test_wf_first_byte : (Instr.prn 0x08).wellFormed = false := by decide
theorem test_wf_second_byte : (Instr.add 0x07 0x08).wellFormed = false := by decide
theorem test_wf_both_bytes_name_the_first : (Instr.add 0x09 0x0A).badRegByte = some 0x09 := by decide
theorem test_wf_whole_byte_is_compared : (Instr.jmp 0x80).wellFormed = false := by decide
theorem test_wf_immediate_is_not_checked : (Instr.ldi 0x07 0xFF).wellFormed = true := by decide
theorem test_wf_hlt : Instr.hlt.wellFormed = true := by decide

/-! ### Each row of R64 decodes: words written out bit by bit from R59 to R62 -/

theorem test_decode_ldi : decode [0b10000010, 0b00000000, 0b00001000] = .ok (.ldi 0 8, []) := by rfl
theorem test_decode_prn : decode [0b01000111, 0b00000011] = .ok (.prn 3, []) := by rfl
theorem test_decode_hlt : decode [0b00000001, 0b11111111] = .ok (.hlt, [0xFF]) := by rfl
theorem test_decode_push : decode [0b01000101, 0b00000111] = .ok (.push 7, []) := by rfl
theorem test_decode_pop : decode [0b01000110, 0b00000001] = .ok (.pop 1, []) := by rfl
theorem test_decode_mul : decode [0b10100010, 0b00000010, 0b00000011] = .ok (.mul 2 3, []) := by rfl
theorem test_decode_div : decode [0b10100011, 0b00000000, 0b00000010] = .ok (.div 0 2, []) := by rfl
theorem test_decode_add : decode [0b10100000, 0b00000111, 0b00000001] = .ok (.add 7 1, []) := by rfl
theorem test_decode_sub : decode [0b10100001, 0b00000001, 0b00000110] = .ok (.sub 1 6, []) := by rfl
theorem test_decode_cmp : decode [0b10100111, 0b00000000, 0b00000101] = .ok (.cmp 0 5, []) := by rfl
theorem test_decode_jeq : decode [0b01010101, 0b00000100] = .ok (.jeq 4, []) := by rfl
theorem test_decode_jne : decode [0b01010110, 0b00000011] = .ok (.jne 3, []) := by rfl
theorem test_decode_jmp : decode [0b01010100, 0b00000001] = .ok (.jmp 1, []) := by rfl

/-- F11: bits 7:6 of an unlisted byte do not make it legal. -/
theorem test_decode_illegal : decode [0x83, 0, 0] = .error (.illegalOpcode 0x83) := by rfl
theorem test_decode_short : decode [0xA0, 0x01] = .error (.missingByte 2) := by rfl
theorem test_table_word : decodeTableWord 24 0x0201A0 = some (.add 1 2) := by decide
theorem test_table_word_short : decodeTableWord 8 0x82 = some (.ldi 0 0) := by decide
theorem test_fetch_word_runs : (after (State.reset.withFetchWord 24 0xFF0382)).reg 3 = 0xFF := by decide

/-! ### Fetch and decode vectors (F1 to F15) -/

theorem test_F1 : after (coreAt 256 (twoRegs 0 0) []) =
    (coreAt 256 (twoRegs 0 0) []).faultedWith .addressOutOfRange 256 := by decide
theorem test_F4 : after (coreAt 254 (twoRegs 0 0) [0x82, 0x00]) =
    (coreAt 254 (twoRegs 0 0) [0x82, 0x00]).faultedWith .addressOutOfRange 256 := by decide
theorem test_F5 : after (coreAt 255 (twoRegs 0 0) [0xFF]) =
    (coreAt 255 (twoRegs 0 0) [0xFF]).faultedWith .illegalOpcode 0xFF := by decide
theorem test_F10 : after (coreAt 0 (twoRegs 0 0) [0xA3, 0x09, 0x01]) =
    (coreAt 0 (twoRegs 0 0) [0xA3, 0x09, 0x01]).faultedWith .invalidRegister 9 := by decide
theorem test_F12 : (after (coreAt 254 (twoRegs 9 0) [0x47, 0x00])).pc = 256 := by decide

/-! ### Instruction vectors (M, A, K, B, H) -/

theorem test_ldi_M2 : (after (coreAt 0 (twoRegs 0 0) [0x82, 0x07, 0x80])).sp = 0x80 := by decide
theorem test_prn_M3 : (after (coreAt 0 (twoRegs 0 0) [0x47, 0x07])).output = [0xF4] := by decide
theorem test_add_A1 : (after (coreAt 0 (twoRegs 200 100) [0xA0, 0x00, 0x01])).reg 0 = 44 := by decide
theorem test_add_A4 : (after (coreAt 0 (twoRegs 128 0) [0xA0, 0x00, 0x00])).reg 0 = 0 := by decide
theorem test_sub_A5 : (after (coreAt 0 (twoRegs 3 5) [0xA1, 0x00, 0x01])).reg 0 = 254 := by decide
theorem test_mul_A10 : (after (coreAt 0 (twoRegs 20 13) [0xA2, 0x00, 0x01])).reg 0 = 4 := by decide
theorem test_div_A14 : (after (coreAt 0 (twoRegs 255 2) [0xA3, 0x00, 0x01])).reg 0 = 127 := by decide
theorem test_div_A17 : after (coreAt 6 (twoRegs 7 0) [0xA3, 0x00, 0x01]) =
    (coreAt 6 (twoRegs 7 0) [0xA3, 0x00, 0x01]).faultedWith .divisionByZero 1 := by decide
theorem test_cmp_A21 : (after (coreAt 0 (twoRegs 0 255) [0xA7, 0x00, 0x01])).fl = .less := by decide
theorem test_cmp_A22 : (after (coreAt 0 (twoRegs 255 0) [0xA7, 0x00, 0x01])).fl = .greater := by decide
theorem test_push_K2 : (after (coreAt 0 (twoRegs 0 0) [0x45, 0x07])).mem.read 0xF3 = 0xF4 := by decide
theorem test_push_K5 : after { coreAt 0 (withSp 3 0x20) [0x45, 0x00] with stackLow := 0x20 } =
    ({ coreAt 0 (withSp 3 0x20) [0x45, 0x00] with stackLow := 0x20 } : State).faultedWith .stackOverflow 0x20 := by
  decide
theorem test_pop_K7 : (after ((coreAt 0 (withSp 0 0xE0) [0x46, 0x07]).setMem 0xE0 0x10)).sp = 0x10 := by decide
theorem test_pop_K10 : after { coreAt 0 (twoRegs 0 0) [0x46, 0x00] with stackHigh := 0xF4 } =
    ({ coreAt 0 (twoRegs 0 0) [0x46, 0x00] with stackHigh := 0xF4 } : State).faultedWith .stackUnderflow 0xF4 := by
  decide
theorem test_jmp_B1 : (after (coreAt 20 (twoRegs 12 0) [0x54, 0x00])).pc = 12 := by decide
theorem test_jeq_B5 : (after (coreAt 20 (twoRegs 12 0) [0x55, 0x00])).pc = 22 := by decide
theorem test_jeq_B6 : (after { coreAt 20 (twoRegs 12 0) [0x55, 0x00] with fl := .equal }).pc = 12 := by decide
theorem test_jne_B9 : (after (coreAt 20 (twoRegs 12 0) [0x56, 0x00])).pc = 12 := by decide
theorem test_jne_B10 : (after { coreAt 20 (twoRegs 12 0) [0x56, 0x00] with fl := .equal }).pc = 22 := by decide
theorem test_hlt_H1 : after (coreAt 7 (twoRegs 3 0) [0x01]) =
    { coreAt 7 (twoRegs 3 0) [0x01] with runState := .halted } := by decide

/-! ### Host interface and assembler -/

theorem test_boot_too_long : State.boot 0 0xFF (List.replicate 257 0x01) = none :=
  if_neg fun h => absurd (List.length_replicate ▸ h.1) (by decide)
theorem test_reset_keeps_memory :
    (after (coreAt 0 (twoRegs 5 0) [0x45, 0x00])).assertReset.mem.read 0xF3 = 5 := by decide
theorem test_outputs_after_F1 :
    (after (coreAt 256 (twoRegs 0 0) [])).outputs = ⟨[], 2, 1, 256, 256⟩ := by decide
theorem test_trace_near_the_end : (coreAt 254 (twoRegs 0 0) [0x47, 0x08]).trace.bytes = [0x47, 0x08] := by decide
theorem test_assemble_S1 : assemble
    (['L', 'D', 'I', ' ', 'R', '0', ',', '8', ';', ' ', 'P', 'R', 'N', ' ', 'R', '0', '\n'] ++ ['H', 'L', 'T', '\n']) =
      some [0x82, 0x00, 0x08, 0x47, 0x00, 0x01] := by decide
theorem test_read_hexadecimal : readImm ['0', 'x', '0', '8'] = some 8 := by decide
theorem test_read_binary : readImm ['0', 'b', '0', '0', '0', '0', '1', '0', '0', '0'] = some 8 := by decide
theorem test_read_no_R8 : readReg ['R', '8'] = none := by decide

/-! ### Witnesses: a state and operands that meet the hypotheses of each statement -/

/-- `coreAt` states have the invariant when their limits, PC and code do. -/
theorem witness_invariant_running : (coreAt 0 (twoRegs 0 0) [0x45, 0x00]).Inv := by
  refine ⟨by decide, by decide, by decide, fun _ => ⟨rfl, rfl, rfl⟩, fun h => ?_, fun h => ?_⟩ <;> cases h

theorem witness_invariant_halted : ({ coreAt 255 (twoRegs 0 0) [0x01] with runState := .halted } : State).Inv := by
  refine ⟨by decide, by decide, by decide, fun _ => ⟨rfl, rfl, rfl⟩, fun _ => by decide, fun h => ?_⟩
  cases h

theorem witness_invariant_faulted : ((coreAt 256 (twoRegs 0 0) []).faultedWith .addressOutOfRange 256).Inv := by
  refine ⟨by decide, by decide, by decide, fun h => absurd rfl h, fun h => ?_, fun _ => by decide⟩
  cases h

theorem witness_StepKeepsTheInvariant :
    ∃ s t : State, s.Inv ∧ step s = .next t ∧ s.runState = .running :=
  ⟨_, _, witness_invariant_running, rfl, rfl⟩

theorem witness_InvariantHoldsAtBootAndAfterReset :
    (∃ s : State, State.boot 0x20 0x20 (List.replicate 256 0x01) = some s) ∧ ∃ s : State, s.Inv :=
  ⟨⟨_, if_pos ⟨Nat.le_of_eq List.length_replicate, by decide⟩⟩, ⟨_, witness_invariant_faulted⟩⟩

theorem witness_EveryRunFromBootKeepsTheInvariant : ∃ s : State, State.boot 0 0xFF [0x82, 0x00, 0x08] = some s :=
  ⟨_, rfl⟩

theorem witness_BootPlacesTheImageAtZero :
    ((List.replicate 256 (0x01 : Byte)).length ≤ 256 ∧ (0x20 : Byte).toNat ≤ (0x20 : Byte).toNat) ∧
      ¬ ((List.replicate 257 (0x01 : Byte)).length ≤ 256 ∧ (0 : Byte).toNat ≤ (0xFF : Byte).toNat) ∧
      ¬ (([] : List Byte).length ≤ 256 ∧ (0x21 : Byte).toNat ≤ (0x20 : Byte).toNat) := by
  rw [List.length_replicate, List.length_replicate]
  decide

theorem witness_DecodeInvertsEncodeExactly : decode [0xA0, 0xFF, 0x08, 0x55] = .ok (.add 0xFF 0x08, [0x55]) := by rfl

theorem witness_OnlyThirteenOpcodesAreLegal :
    (coreAt 255 (twoRegs 0 0) [0xFF]).runState = .running ∧ (coreAt 255 (twoRegs 0 0) [0xFF]).pc.toNat ≤ 255 ∧
      (coreAt 255 (twoRegs 0 0) [0xFF]).codeByte 0 ∉ legalOpcodes ∧ (0x83 : Byte) ∉ legalOpcodes ∧
      (0x00 : Byte) ∉ legalOpcodes := by decide

theorem witness_AssemblerReadsWhatItWrites :
    (Instr.ldi 0x07 0xFF).wellFormed = true ∧ (Instr.cmp 0x00 0x07).wellFormed = true := by decide

theorem witness_ReadGivesTheMostRecentWrite :
    Memory.wf (Memory.writeBytes [] 254 [0x01, 0x02]) = true ∧
      ([(0xFF, 3), (0xFF, 0), (0x00, 7)] : List (Byte × Byte)).reverse.find? (fun w => w.1.toNat == 255) =
        some (0xFF, 0) := by decide

theorem witness_OnlyPushChangesMemory :
    ∃ s t : State, step s = .next t ∧ t.mem.read 0x00 ≠ s.mem.read 0x00 :=
  ⟨coreAt 0x10 (withSp 9 1) [0x45, 0x00], _, rfl, by decide⟩

theorem witness_FetchSeesThePushedByte :
    let s := coreAt 8 (withSp 1 11) [0x45, 0x00]
    s.runState = .running ∧ s.mem.wf = true ∧ s.pc.toNat ≤ 254 ∧ s.codeByte 0 = 0x45 ∧ s.codeByte 1 = regByte 0 ∧
      s.stackLow.toNat < s.sp.toNat ∧ s.pc.toNat + 2 = (pushAddr s).toNat ∧ s.reg 0 = 0x01 := by decide

/-- The same with a pushed byte that is no opcode. -/
theorem witness_FetchSeesThePushedByte_illegal :
    let s := coreAt 8 (withSp 0xFE 11) [0x45, 0x00]
    s.pc.toNat + 2 = (pushAddr s).toNat ∧ s.reg 0 ∉ legalOpcodes ∧ s.stackLow.toNat < s.sp.toNat ∧ s.mem.wf = true := by
  decide

theorem witness_StepRunsTheDecodedInstruction :
    decode (coreAt 254 (twoRegs 0 0) [0x47, 0x07]).codeBytes = .ok (.prn 7, []) ∧
      decode (coreAt 255 (twoRegs 0 0) [0x02]).codeBytes = .error (.illegalOpcode 0x02) ∧
      decode (coreAt 254 (twoRegs 0 0) [0x82, 0x00]).codeBytes = .error (.missingByte 2) ∧
      decode (coreAt 256 (twoRegs 0 0) []).codeBytes = .error (.missingByte 0) :=
  ⟨rfl, rfl, rfl, rfl⟩

theorem witness_FetchReadsOpcodeThenOperands :
    (coreAt 256 (twoRegs 0 0) []).pc = 256 ∧
      (∀ k : Nat, k < (encode (.ldi 0x01 0x02)).length →
        (coreAt 253 (twoRegs 0 0) [0x82, 0x01, 0x02]).pc.toNat + k ≤ 255 ∧
          (encode (.ldi 0x01 0x02))[k]? = some ((coreAt 253 (twoRegs 0 0) [0x82, 0x01, 0x02]).codeByte k)) ∧
      (coreAt 254 (twoRegs 0 0) [0x82, 0x00]).codeByte 0 = (Instr.ldi 0 0).opcode ∧
      255 < (coreAt 254 (twoRegs 0 0) [0x82, 0x00]).pc.toNat + (Instr.ldi 0 0).operandBytes.length := by decide

/-- The clause on an illegal opcode, at address 255. -/
theorem witness_FetchReadsOpcodeThenOperands_illegal :
    (coreAt 255 (twoRegs 0 0) [0x02]).runState = .running ∧ (coreAt 255 (twoRegs 0 0) [0x02]).pc.toNat ≤ 255 ∧
      (coreAt 255 (twoRegs 0 0) [0x02]).codeByte 0 ∉ legalOpcodes := by decide

theorem witness_PlacedWordIsTheNextInstruction :
    State.reset.mem.wf = true ∧ (coreAt 253 (twoRegs 0 0) []).pc.toNat ≤ 253 ∧
      (coreAt 253 (twoRegs 0 0) []).mem.wf = true ∧ decodeTableWord 24 0x0807A7 = some (.cmp 0x07 0x08) := by decide

theorem witness_RegisterBytesAreCheckedInOrder :
    (Instr.add 0x08 0xFF).badRegByte = some 0x08 ∧ (Instr.jeq 0x08).badRegByte = some 0x08 ∧
      (Instr.cmp 0x07 0x08).badRegByte = some 0x08 ∧ (Instr.sub 0x07 0x07).badRegByte = none ∧
      7 < (0x08 : Byte).toNat ∧ (0x07 : Byte).toNat ≤ 7 ∧
      (∃ t : State, exec (.sub 0x07 0x07) State.reset = .next t) :=
  ⟨by decide, by decide, by decide, by decide, by decide, by decide, _, rfl⟩

/-- For every instruction with a register operand, a bad first byte is found, and at address 255 its opcode meets the
hypotheses of the operand fetch fault. -/
theorem witness_exceptions_of_the_rules :
    ∀ i ∈ [Instr.ldi 8 0, .prn 8, .push 8, .pop 8, .mul 8 0, .div 8 0, .add 8 0, .sub 8 0, .cmp 8 0, .jeq 8, .jne 8, .jmp 8],
      i.badRegByte = some 8 ∧ (coreAt 255 (twoRegs 0 0) [i.opcode]).runState = .running ∧
        (coreAt 255 (twoRegs 0 0) [i.opcode]).pc.toNat ≤ 255 ∧
        (coreAt 255 (twoRegs 0 0) [i.opcode]).codeByte 0 = i.opcode ∧
        255 < (coreAt 255 (twoRegs 0 0) [i.opcode]).pc.toNat + i.operandBytes.length := by decide

theorem witness_RunningStepTakesTheNextPc :
    State.reset.runState = .running ∧ (coreAt 254 (twoRegs 9 0) [0x47, 0x00]).stepFault = none ∧
      (coreAt 254 (twoRegs 9 0) [0x47, 0x00]).nextPc = 256 ∧ (coreAt 255 (twoRegs 0 0) [0x01]).stepFault = none ∧
      State.reset.stepFault = some (.illegalOpcode, 0) := by decide

theorem witness_HaltedAndFaultedChangeNothing :
    ({ State.reset with runState := .halted } : State).runState ≠ .running ∧
      (State.reset.faultedWith .illegalOpcode 0).runState ≠ .running := by decide

theorem witness_NoStepChangesTheLimits : ∃ t : State, step State.reset = .next t := ⟨_, rfl⟩

theorem witness_OnlyPrnExtendsTheOutput :
    ∃ s t : State, step s = .next t ∧ t.output = s.output ++ [9] :=
  ⟨coreAt 254 (twoRegs 9 0) [0x47, 0x00], _, rfl, by decide⟩

theorem witness_DivWritesTheFloorOrFaultsOnZero :
    (twoRegs 255 1)[(1 : RegIdx)] ≠ 0x00 ∧ (twoRegs 0 0)[(0 : RegIdx)] = 0x00 := by decide

theorem witness_AluAnswersByItsSelector :
    (0x00 : Byte) = 0x00 ∧ (0x01 : Byte) ≠ 0x00 ∧ alu .other 0 0 = .unsupportedOperation ∧
      State.reset.runState = .running ∧ (∃ t : State, step State.reset = .next t) :=
  ⟨by decide, by decide, by decide, by decide, _, rfl⟩

theorem witness_FlagsAreWrittenByCmpAndReadByBranches :
    (∃ s t : State, step s = .next t ∧ t.fl ≠ s.fl) ∧
      (∃ t : State, exec (.cmp (regByte 0) (regByte 7)) State.reset = .next t) ∧
      FlagState.less.e = State.reset.fl.e :=
  ⟨⟨coreAt 0 (twoRegs 5 5) [0xA7, 0x00, 0x01], _, rfl, by decide⟩, ⟨_, rfl⟩, by decide⟩

/-- PUSH at the low limit and one above it, POP at the high limit and one below it: the boundary of each clause of the
stack statements. -/
theorem witness_stack_bounds :
    let s := { coreAt 0 (withSp 3 0x20) [0x45, 0x00] with stackLow := 0x20, stackHigh := 0x21 }
    let u := { coreAt 0 (withSp 3 0x21) [0x45, 0x00] with stackLow := 0x20, stackHigh := 0x21 }
    s.sp.toNat ≤ s.stackLow.toNat ∧ s.stackLow.toNat < u.sp.toNat ∧ s.sp.toNat < s.stackHigh.toNat ∧
      u.stackHigh.toNat ≤ u.sp.toNat := by decide

/-- The extreme SP values of the default limits (K3, K4, K8, K9). -/
theorem witness_default_stack_bounds :
    (coreAt 0 (withSp 0 0) []).sp.toNat ≤ State.reset.stackLow.toNat ∧
      State.reset.stackLow.toNat < (coreAt 0 (withSp 0 1) []).sp.toNat ∧
      (coreAt 0 (withSp 0 0xFE) []).sp.toNat < State.reset.stackHigh.toNat ∧
      State.reset.stackHigh.toNat ≤ (coreAt 0 (withSp 0 0xFF) []).sp.toNat := by decide

theorem witness_PushStoresBelowSp :
    State.reset.stackLow.toNat < State.reset.sp.toNat ∧ State.reset.mem.wf = true := by decide

theorem witness_PopLoadsFromSp : State.reset.sp.toNat < State.reset.stackHigh.toNat := by decide

theorem witness_PushThenPopRoundTrip :
    (coreAt 0 (withSp 0 0xFF) []).mem.wf = true ∧
      State.reset.stackLow.toNat < (coreAt 0 (withSp 0 0xFF) []).sp.toNat ∧
      (coreAt 0 (withSp 0 0xFF) []).sp.toNat ≤ State.reset.stackHigh.toNat := by decide

theorem witness_JneJumpsUnlessEqual :
    ∃ t : State, exec (.cmp (regByte 0) (regByte 1)) (coreAt 0 (twoRegs 5 5) []) = .next t ∧ t.fl = .equal :=
  ⟨_, rfl, by decide⟩

theorem witness_HltHaltsInPlace :
    (coreAt 255 (twoRegs 0 0) [0x01]).runState = .running ∧ (coreAt 255 (twoRegs 0 0) [0x01]).pc.toNat ≤ 255 ∧
      (coreAt 255 (twoRegs 0 0) [0x01]).codeByte 0 = 0x01 := by decide

/-- One faulting step for each row of R105 that an instruction raises. -/
theorem witness_FaultRegistersFollowTheTable :
    ∀ s ∈ [coreAt 256 (twoRegs 0 0) [], coreAt 254 (twoRegs 0 0) [0x82, 0x00], coreAt 0 (twoRegs 0 0) [0x02],
        coreAt 0 (twoRegs 0 0) [0xA0, 0x07, 0x08], coreAt 0 (twoRegs 7 0) [0xA3, 0x00, 0x01],
        coreAt 8 (withSp 0 0) [0x45, 0x00], coreAt 0 (withSp 0 0xFF) [0x46, 0x00]],
      s.runState = .running ∧ s.pc.toNat ≤ 256 ∧ step s = .next (after s) ∧ (after s).runState = .faulted := by
  intro s hs
  simp only [List.mem_cons, List.not_mem_nil, or_false] at hs
  rcases hs with rfl | rfl | rfl | rfl | rfl | rfl | rfl <;>
    exact ⟨by decide, by decide, rfl, by decide⟩

/-- The clause on a step that does not end in Faulted. -/
theorem witness_FaultRegistersFollowTheTable_noFault :
    step (coreAt 254 (twoRegs 9 0) [0x47, 0x00]) = .next (after (coreAt 254 (twoRegs 9 0) [0x47, 0x00])) ∧
      (after (coreAt 254 (twoRegs 9 0) [0x47, 0x00])).runState ≠ .faulted := ⟨rfl, by decide⟩

theorem witness_FirstFaultOfThePriorityWins :
    (coreAt 0 (twoRegs 0 0) [0xA3, 0x09, 0x01]).stepFault = some (.invalidRegister, 9) ∧
      (coreAt 255 (twoRegs 0 0) [0xFF]).stepFault = some (.illegalOpcode, 0xFF) ∧
      (coreAt 255 (twoRegs 0 0) [0x82]).stepFault = some (.addressOutOfRange, 256) ∧
      (coreAt 253 (twoRegs 0 1) [0xA3, 0x00, 0x01]).stepFault = none := by decide

theorem witness_FaultEntryChangesNothingElse :
    State.reset.runState = .running ∧ step State.reset = .next (after State.reset) ∧
      (after State.reset).runState = .faulted :=
  ⟨by decide, rfl, by decide⟩

theorem witness_RegisterResultInstructionsFrame :
    ∀ i ∈ [Instr.ldi 0 1, .add 0 1, .sub 0 1, .mul 0 1, .div 0 1], ∃ t : State, exec i State.reset = .next t := by
  intro i hi
  simp only [List.mem_cons, List.not_mem_nil, or_false] at hi
  rcases hi with rfl | rfl | rfl | rfl | rfl <;> exact ⟨_, rfl⟩

theorem witness_ReadingInstructionsFrame :
    ∀ i ∈ [Instr.prn 0, .cmp 0 1, .jeq 0, .jne 0, .jmp 0, .hlt], ∃ t : State, exec i State.reset = .next t := by
  intro i hi
  simp only [List.mem_cons, List.not_mem_nil, or_false] at hi
  rcases hi with rfl | rfl | rfl | rfl | rfl | rfl <;> exact ⟨_, rfl⟩

theorem witness_PushFrame :
    ∃ t : State, exec (.push 0) (coreAt 0 (withSp 3 0x21) []) = .next t ∧ t.mem.read 0x20 = 3 :=
  ⟨_, rfl, by decide⟩

theorem witness_PopFrame :
    ∃ t : State, exec (.pop 1) State.reset = .next t ∧ t.sp = 0xF5 :=
  ⟨_, rfl, by decide⟩

theorem witness_UnreadRegistersHaveNoInfluence :
    (Instr.ldi (regByte 0) 5).readsReg 0 = false ∧ (Instr.pop (regByte 1)).readsReg 1 = false ∧
      (Instr.push (regByte 1)).readsReg 2 = false ∧ (Instr.push (regByte 1)).readsReg 7 = true := by decide

theorem witness_OnlyPopReadsMemory :
    Memory.read [(0xF4, 0x00), (0x10, 0x01)] State.reset.sp.toNat = State.reset.mem.read State.reset.sp.toNat := by
  decide

end Sys2Proof.Tests
end

section
/-! PROOFS. What the end of an instruction can do to the state, and that a step keeps the stack limits (R15, R16). -/

namespace Sys2Proof.Machine

/-- R80, R82: every rule is one effect, or one raise, handed to the shared end of a step. -/
theorem exec_eq_finish (i : Instr) (s : State) : ∃ r : Except Raise Effect, exec i s = finish s r := by
  cases i with
  | hlt => exact ⟨.ok ⟨[.runState .halted], s.pc⟩, rfl⟩
  | _ => exact ⟨_, rfl⟩

/-- An executed instruction commits an effect or enters Faulted. -/
theorem exec_cases {i : Instr} {s t : State} (h : exec i s = .next t) :
    (∃ e : Effect, t = commit e s) ∨ (∃ f : Raise, t = takeFault f s) := by
  obtain ⟨r, hr⟩ := exec_eq_finish i s
  rw [hr] at h
  exact (finish_cases h).imp (fun ⟨e, _, ht⟩ => ⟨e, ht⟩) (fun ⟨f, _, ht⟩ => ⟨f, ht⟩)

/-- `Write` has no constructor for a stack limit. -/
@[simp] theorem applyWrite_limits (s : State) (w : Write) :
    (applyWrite s w).stackLow = s.stackLow ∧ (applyWrite s w).stackHigh = s.stackHigh := by
  cases w <;> exact ⟨rfl, rfl⟩

@[simp] theorem foldl_applyWrite_limits (ws : List Write) (s : State) :
    (ws.foldl applyWrite s).stackLow = s.stackLow ∧ (ws.foldl applyWrite s).stackHigh = s.stackHigh := by
  induction ws generalizing s with
  | nil => exact ⟨rfl, rfl⟩
  | cons w ws ih => simp [ih]

@[simp] theorem commit_limits (e : Effect) (s : State) :
    (commit e s).stackLow = s.stackLow ∧ (commit e s).stackHigh = s.stackHigh := by
  simp [commit]

theorem exec_limits {i : Instr} {s t : State} (h : exec i s = .next t) :
    t.stackLow = s.stackLow ∧ t.stackHigh = s.stackHigh := by
  obtain ⟨e, rfl⟩ | ⟨f, rfl⟩ := exec_cases h
  · exact commit_limits e s
  · exact ⟨takeFault_stackLow s f, takeFault_stackHigh s f⟩

/-- Settles O22: outside Running the state stays, a failed fetch enters Faulted, and an executed instruction ends in
a commit or a fault entry; none of them writes a limit. -/
theorem noStepChangesTheLimits : Obligations.NoStepChangesTheLimits := by
  intro s t h
  obtain ⟨-, rfl⟩ | ⟨-, r, -, rfl⟩ | ⟨-, i, -, hexec⟩ := step_cases h
  · exact ⟨rfl, rfl⟩
  · exact ⟨takeFault_stackLow s r, takeFault_stackHigh s r⟩
  · exact exec_limits hexec

end Sys2Proof.Machine
end

section
/-! PROOFS. What memory holds after an image is stored, and the machine that the host's load gives (R17, R123). -/

namespace Sys2Proof.Machine

/-- A read at `k` places after the start of bytes that were stored below 256: byte `k`, or what memory held there
where the bytes have ended. -/
theorem Memory.read_writeBytes {m : Memory} (hm : m.wf = true) {a : Nat} {bs : List Byte}
    (h : a + bs.length ≤ Config.memSize) (k : Nat) :
    (m.writeBytes a bs).read (a + k) = bs.getD k (m.read (a + k)) := by
  induction bs generalizing m a k with
  | nil => rfl
  | cons b bs ih =>
    rw [List.length_cons] at h
    have ha : a < Config.memSize := by omega
    rw [writeBytes, if_pos ha]
    cases k with
    | zero =>
      rw [read_writeBytes_below _ bs (show a + 0 < a + 1 by omega)]
      exact read_write_self hm a b
    | succ k =>
      have hnext := ih (write_wf hm b ha) (show a + 1 + bs.length ≤ Config.memSize by omega) k
      have hk : a + 1 + k = a + (k + 1) := by omega
      rwa [hk, read_write_ne m b (show a + (k + 1) ≠ a by omega)] at hnext

/-- R123: the memory the host loads holds the image from address 0 and zero elsewhere. -/
theorem Memory.read_loadedImage {image : List Byte} (h : image.length ≤ Config.memSize) (k : Nat) :
    (Memory.writeBytes [] 0 image).read k = image.getD k Config.blankByte := by
  simpa using Memory.read_writeBytes (m := []) rfl (a := 0) (by omega) k

theorem boot_of_fits {low high : Byte} {image : List Byte}
    (h : image.length ≤ Config.memSize ∧ low.toNat ≤ high.toNat) :
    State.boot low high image =
      some { State.reset with mem := Memory.writeBytes [] 0 image, stackLow := low, stackHigh := high } :=
  if_pos h

theorem boot_of_not_fits {low high : Byte} {image : List Byte}
    (h : ¬ (image.length ≤ Config.memSize ∧ low.toNat ≤ high.toNat)) : State.boot low high image = none :=
  if_neg h

/-- Settles O7: the loaded state is `State.reset` over the stored image, whose cells are read by induction on the
bytes stored. -/
theorem bootPlacesTheImageAtZero : Obligations.BootPlacesTheImageAtZero := by
  intro low high image
  refine ⟨fun hfits => ⟨_, boot_of_fits hfits, ?_, ?_, rfl, rfl, rfl⟩, boot_of_not_fits⟩
  · exact Memory.read_loadedImage hfits.1
  · exact Memory.writeBytes_wf rfl 0 image

end Sys2Proof.Machine
end

section
/-! PROOFS. The rule each instruction hands to the shared end of a step (R80), on legal and on illegal register
bytes (R79). -/

namespace Sys2Proof

/-- R79: an instruction whose register bytes all pass the check, as a case split: one case per row of R64, each
register byte written as the register it names. -/
inductive Instr.Checked : Instr → Prop where
  | ldi (a : RegIdx) (imm : Byte) : Checked (.ldi (regByte a) imm)
  | prn (a : RegIdx) : Checked (.prn (regByte a))
  | hlt : Checked .hlt
  | push (a : RegIdx) : Checked (.push (regByte a))
  | pop (a : RegIdx) : Checked (.pop (regByte a))
  | mul (a b : RegIdx) : Checked (.mul (regByte a) (regByte b))
  | div (a b : RegIdx) : Checked (.div (regByte a) (regByte b))
  | add (a b : RegIdx) : Checked (.add (regByte a) (regByte b))
  | sub (a b : RegIdx) : Checked (.sub (regByte a) (regByte b))
  | cmp (a b : RegIdx) : Checked (.cmp (regByte a) (regByte b))
  | jeq (a : RegIdx) : Checked (.jeq (regByte a))
  | jne (a : RegIdx) : Checked (.jne (regByte a))
  | jmp (a : RegIdx) : Checked (.jmp (regByte a))

end Sys2Proof

namespace Sys2Proof.Machine

theorem exists_regByte_of_isRegByte {b : Byte} (h : isRegByte b = true) : ∃ r, b = regByte r := by
  obtain hr | hbad := regByte_or_bad b
  · exact hr
  · rw [isRegByte_eq_false.mpr hbad] at h
    cases h

theorem checked_of_badRegByte_none {i : Instr} (h : i.badRegByte = none) : i.Checked := by
  have legal : ∀ b ∈ i.regBytes, ∃ r, b = regByte r := fun b hb =>
    exists_regByte_of_isRegByte (by simpa using List.find?_eq_none.mp h b hb)
  cases i with
  | hlt => exact .hlt
  | ldi ra | prn ra | push ra | pop ra | jeq ra | jne ra | jmp ra =>
    obtain ⟨a, rfl⟩ := legal ra (by simp [Instr.regBytes])
    constructor
  | mul ra rb | div ra rb | add ra rb | sub ra rb | cmp ra rb =>
    obtain ⟨a, rfl⟩ := legal ra (by simp [Instr.regBytes])
    obtain ⟨b, rfl⟩ := legal rb (by simp [Instr.regBytes])
    constructor

/-- The check of R79 stops at a byte, or every register byte names a register. -/
theorem bad_or_checked (i : Instr) : (∃ b, i.badRegByte = some b) ∨ i.Checked := by
  cases h : i.badRegByte with
  | none => exact .inr (checked_of_badRegByte_none h)
  | some b => exact .inl ⟨b, rfl⟩

/-- R80: "a list of writes and a next-PC value", or a raise: what each instruction's meaning hands to `finish`. -/
def ruleEffect (i : Instr) (s : State) : Except Raise Effect :=
  match i with
  | .ldi ra imm => (regIndex ra).bind fun a => .ok ⟨[.reg a imm], s.pcPlus 3⟩
  | .prn ra => (regIndex ra).bind fun a => .ok ⟨[.emit (s.reg a)], s.pcPlus 2⟩
  | .hlt => .ok ⟨[.runState .halted], s.pc⟩
  | .push ra => (regIndex ra).bind fun a =>
    if s.sp.toNat ≤ s.stackLow.toNat then .error (.stackOverflow s.sp)
    else (checkRange (zext9 (pushAddr s))).bind fun p =>
      .ok ⟨[.mem p (s.reg a), .reg Config.spIndex (s.sp - 1#8)], s.pcPlus 2⟩
  | .pop ra => (regIndex ra).bind fun a =>
    if s.stackHigh.toNat ≤ s.sp.toNat then .error (.stackUnderflow s.sp)
    else (memRead s (zext9 (popAddr s))).bind fun v =>
      .ok ⟨[.reg Config.spIndex (s.sp + 1#8), .reg a v], s.pcPlus 2⟩
  | .mul ra rb => aluEffect .mul ra rb s
  | .div ra rb => aluEffect .div ra rb s
  | .add ra rb => aluEffect .add ra rb s
  | .sub ra rb => aluEffect .sub ra rb s
  | .cmp ra rb => aluEffect .cmp ra rb s
  | .jeq ra => jumpEffect s.fl.e ra s
  | .jne ra => jumpEffect (!s.fl.e) ra s
  | .jmp ra => jumpEffect true ra s

theorem exec_eq_finish_ruleEffect (i : Instr) (s : State) : exec i s = finish s (ruleEffect i s) := by
  cases i <;> rfl

/-- An executed instruction commits its rule's effect, or enters Faulted by its rule's raise. -/
theorem exec_rule_cases {i : Instr} {s t : State} (h : exec i s = .next t) :
    (∃ e, ruleEffect i s = .ok e ∧ t = commit e s) ∨ (∃ f, ruleEffect i s = .error f ∧ t = takeFault f s) :=
  finish_cases (exec_eq_finish_ruleEffect i s ▸ h)

/-! ### The rule on legal register bytes, row by row -/

section
variable (a b : RegIdx) (s : State)

@[simp] theorem ruleEffect_ldi (imm : Byte) :
    ruleEffect (.ldi (regByte a) imm) s = .ok ⟨[.reg a imm], s.pcPlus 3⟩ := by
  simp [ruleEffect, Except.bind]

@[simp] theorem ruleEffect_prn : ruleEffect (.prn (regByte a)) s = .ok ⟨[.emit (s.reg a)], s.pcPlus 2⟩ := by
  simp [ruleEffect, Except.bind]

@[simp] theorem ruleEffect_hlt : ruleEffect .hlt s = .ok ⟨[.runState .halted], s.pc⟩ := rfl

@[simp] theorem ruleEffect_push :
    ruleEffect (.push (regByte a)) s =
      if s.sp.toNat ≤ s.stackLow.toNat then .error (.stackOverflow s.sp)
      else .ok ⟨[.mem (pushAddr s).toNat (s.reg a), .reg Config.spIndex (s.sp - 1#8)], s.pcPlus 2⟩ := by
  simp [ruleEffect, Except.bind]

@[simp] theorem ruleEffect_pop :
    ruleEffect (.pop (regByte a)) s =
      if s.stackHigh.toNat ≤ s.sp.toNat then .error (.stackUnderflow s.sp)
      else .ok ⟨[.reg Config.spIndex (s.sp + 1#8), .reg a (s.mem.read s.sp.toNat)], s.pcPlus 2⟩ := by
  simp [ruleEffect, Except.bind, popAddr]

@[simp] theorem ruleEffect_mul :
    ruleEffect (.mul (regByte a) (regByte b)) s = .ok ⟨[.reg a (s.reg a * s.reg b)], s.pcPlus 3⟩ :=
  aluEffect_regByte .mul a b s

@[simp] theorem ruleEffect_div :
    ruleEffect (.div (regByte a) (regByte b)) s =
      if s.reg b = 0#8 then .error (.divisionByZero b) else .ok ⟨[.reg a (s.reg a / s.reg b)], s.pcPlus 3⟩ := by
  rw [ruleEffect, aluEffect_regByte]
  by_cases h : s.reg b = 0#8 <;> simp [alu, h]

@[simp] theorem ruleEffect_add :
    ruleEffect (.add (regByte a) (regByte b)) s = .ok ⟨[.reg a (s.reg a + s.reg b)], s.pcPlus 3⟩ :=
  aluEffect_regByte .add a b s

@[simp] theorem ruleEffect_sub :
    ruleEffect (.sub (regByte a) (regByte b)) s = .ok ⟨[.reg a (s.reg a - s.reg b)], s.pcPlus 3⟩ :=
  aluEffect_regByte .sub a b s

@[simp] theorem ruleEffect_cmp :
    ruleEffect (.cmp (regByte a) (regByte b)) s =
      .ok ⟨[.fl (compareFlags (s.reg a) (s.reg b))], s.pcPlus 3⟩ :=
  aluEffect_regByte .cmp a b s

@[simp] theorem ruleEffect_jeq :
    ruleEffect (.jeq (regByte a)) s = .ok ⟨[], if s.fl.e then zext9 (s.reg a) else s.pcPlus 2⟩ :=
  jumpEffect_regByte s.fl.e a s

@[simp] theorem ruleEffect_jne :
    ruleEffect (.jne (regByte a)) s = .ok ⟨[], if !s.fl.e then zext9 (s.reg a) else s.pcPlus 2⟩ :=
  jumpEffect_regByte (!s.fl.e) a s

@[simp] theorem ruleEffect_jmp : ruleEffect (.jmp (regByte a)) s = .ok ⟨[], zext9 (s.reg a)⟩ :=
  jumpEffect_regByte true a s

end

/-! ### The rule on an illegal register byte (R79) -/

/-- `badRegByte` of the formats with one register byte (R60, R62). -/
theorem badRegByte_of_one {i : Instr} {ra : Byte} (hi : i.regBytes = [ra]) :
    i.badRegByte = if 7 < ra.toNat then some ra else none := by
  obtain ⟨a, rfl⟩ | hbad := regByte_or_bad ra
  · have := a.isLt
    rw [if_neg (by rw [toNat_regByte]; omega)]
    simp [Instr.badRegByte, hi]
  · simp [Instr.badRegByte, hi, isRegByte_eq_false.mpr hbad, hbad]

/-- `badRegByte` of format RR: byte 1 is named before byte 2 (R61, R79). -/
theorem badRegByte_of_two {i : Instr} {ra rb : Byte} (hi : i.regBytes = [ra, rb]) :
    i.badRegByte = if 7 < ra.toNat then some ra else if 7 < rb.toNat then some rb else none := by
  obtain ⟨a, rfl⟩ | hbad := regByte_or_bad ra
  · have := a.isLt
    have hfirst : i.badRegByte = [rb].find? (fun b => !isRegByte b) := by simp [Instr.badRegByte, hi]
    rw [hfirst, if_neg (by rw [toNat_regByte]; omega)]
    exact badRegByte_of_one (i := .prn rb) rfl
  · simp [Instr.badRegByte, hi, isRegByte_eq_false.mpr hbad, hbad]

theorem aluEffect_bad (sel : AluSelector) {i : Instr} {ra rb b : Byte} (s : State) (hi : i.regBytes = [ra, rb])
    (h : i.badRegByte = some b) : aluEffect sel ra rb s = .error (.invalidRegister b) := by
  rw [badRegByte_of_two hi] at h
  obtain ⟨a, rfl⟩ | hbad := regByte_or_bad ra
  · have := a.isLt
    rw [if_neg (by rw [toNat_regByte]; omega)] at h
    obtain ⟨hbad, rfl⟩ : 7 < rb.toNat ∧ rb = b := by simpa using h
    exact aluEffect_bad_second sel a s hbad
  · rw [if_pos hbad] at h
    cases h
    exact aluEffect_bad_first sel rb s hbad

/-- R79: the first register byte above 7 is what the rule raises, before anything else. -/
theorem ruleEffect_bad {i : Instr} {b : Byte} (s : State) (h : i.badRegByte = some b) :
    ruleEffect i s = .error (.invalidRegister b) := by
  cases i with
  | hlt => cases h
  | ldi ra | prn ra | push ra | pop ra =>
    obtain ⟨hbad, rfl⟩ : 7 < ra.toNat ∧ ra = b := by
      simpa using (badRegByte_of_one rfl).symm.trans h
    simp [ruleEffect, regIndex_bad hbad, Except.bind]
  | jeq ra | jne ra | jmp ra =>
    obtain ⟨hbad, rfl⟩ : 7 < ra.toNat ∧ ra = b := by
      simpa using (badRegByte_of_one rfl).symm.trans h
    exact jumpEffect_bad _ s hbad
  | mul ra rb | div ra rb | add ra rb | sub ra rb | cmp ra rb =>
    rw [ruleEffect]
    exact aluEffect_bad _ s rfl h

/-- A rule that answers an effect has passed the check of R79. -/
theorem checked_of_ruleEffect_ok {i : Instr} {s : State} {e : Effect} (h : ruleEffect i s = .ok e) : i.Checked := by
  obtain ⟨b, hb⟩ | hc := bad_or_checked i
  · rw [ruleEffect_bad s hb] at h
    cases h
  · exact hc

end Sys2Proof.Machine
end

section
/-! PROOFS. Noninterference: what a rule reads (R24), and relations between two states that every end of a step
keeps. A statement on a piece of state that is not read is the two together. -/

namespace Sys2Proof.Machine

/-! ### What a rule reads -/

/-- Two states that agree on everything `i` reads by the columns "registers read" and "other state read" of R24, and
on PC and the limits. -/
structure ReadsAlike (i : Instr) (s u : State) : Prop where
  pc : u.pc = s.pc
  stackLow : u.stackLow = s.stackLow
  stackHigh : u.stackHigh = s.stackHigh
  reg : ∀ r, i.readsReg r = true → u.reg r = s.reg r
  flag : (∃ ra, i = .jeq ra ∨ i = .jne ra) → u.fl.e = s.fl.e
  stackTop : (∃ ra, i = .pop ra) → u.mem.read s.sp.toNat = s.mem.read s.sp.toNat

theorem ReadsAlike.pcPlus {i : Instr} {s u : State} (h : ReadsAlike i s u) (k : Nat) : u.pcPlus k = s.pcPlus k := by
  rw [State.pcPlus, State.pcPlus, h.pc]

theorem ReadsAlike.sp {i : Instr} {s u : State} (h : ReadsAlike i s u) (hr : i.readsReg Config.spIndex = true) :
    u.sp = s.sp :=
  h.reg _ hr

/-- A rule's answer is a function of what it reads. -/
theorem ruleEffect_congr {i : Instr} {s u : State} (h : ReadsAlike i s u) : ruleEffect i u = ruleEffect i s := by
  obtain ⟨b, hb⟩ | hc := bad_or_checked i
  · rw [ruleEffect_bad u hb, ruleEffect_bad s hb]
  · cases hc with
    | ldi a imm => simp [h.pcPlus]
    | hlt => simp [h.pc]
    | prn a => simp [h.pcPlus, h.reg a (by simp [Instr.readsReg])]
    | jmp a => simp [h.reg a (by simp [Instr.readsReg])]
    | jeq a | jne a =>
      simp [h.pcPlus, h.reg a (by simp [Instr.readsReg]), h.flag ⟨regByte a, by simp⟩]
    | push a =>
      have hsp := h.sp (by simp [Instr.readsReg])
      simp [h.pcPlus, h.reg a (by simp [Instr.readsReg]), pushAddr, hsp, h.stackLow]
    | pop a =>
      have hsp := h.sp (by simp [Instr.readsReg])
      simp [h.pcPlus, hsp, h.stackHigh, h.stackTop ⟨_, rfl⟩]
    | mul a b | div a b | add a b | sub a b | cmp a b =>
      simp [h.pcPlus, h.reg a (by simp [Instr.readsReg]), h.reg b (by simp [Instr.readsReg])]

/-! ### What every end of a step keeps -/

/-- A relation between two states that survives when the same write, the same next PC or the same fault entry is
made in both. -/
structure KeptByCommit (R : State → State → Prop) : Prop where
  write : ∀ {t u : State}, R t u → ∀ w, R (applyWrite t w) (applyWrite u w)
  setPc : ∀ {t u : State}, R t u → ∀ p, R (t.setPc p) (u.setPc p)
  fault : ∀ {t u : State}, R t u → ∀ f, R (takeFault f t) (takeFault f u)

theorem KeptByCommit.foldl {R : State → State → Prop} (hR : KeptByCommit R) (ws : List Write) {s u : State}
    (h : R s u) : R (ws.foldl applyWrite s) (ws.foldl applyWrite u) := by
  induction ws generalizing s u with
  | nil => exact h
  | cons w ws ih => exact ih (hR.write h w)

/-- Two related states that the instruction reads alike are taken to related states. -/
theorem KeptByCommit.exec {R : State → State → Prop} (hR : KeptByCommit R) {i : Instr} {s u : State}
    (hreads : ReadsAlike i s u) (h : R s u) :
    ∃ t v : State, exec i s = .next t ∧ exec i u = .next v ∧ R t v := by
  rw [exec_eq_finish_ruleEffect, exec_eq_finish_ruleEffect, ruleEffect_congr hreads]
  cases ruleEffect i s with
  | ok e => exact ⟨_, _, rfl, rfl, hR.setPc (hR.foldl e.writes h) e.nextPc⟩
  | error f => exact ⟨_, _, rfl, rfl, hR.fault h f⟩

/-! ### Memory is read by POP alone -/

/-- Two states that differ in memory alone. -/
def SameButMem (t u : State) : Prop := ∃ m : Memory, u = { t with mem := m }

theorem sameButMem_kept : KeptByCommit SameButMem where
  write := by
    rintro t _ ⟨m, rfl⟩ w
    cases w with
    | mem a v => exact ⟨m.write a v, rfl⟩
    | reg | fl | emit | runState => exact ⟨m, rfl⟩
  setPc := by
    rintro t _ ⟨m, rfl⟩ p
    exact ⟨m, rfl⟩
  fault := by
    rintro t _ ⟨m, rfl⟩ f
    exact ⟨m, rfl⟩

/-- Settles O50: the rule is the same over both memories, since POP finds the same byte at SP, and the same writes
leave two memories where all else is equal. -/
theorem onlyPopReadsMemory : Obligations.OnlyPopReadsMemory := by
  intro i s m hpop
  have hreads : ReadsAlike i s { s with mem := m } := ⟨rfl, rfl, rfl, fun _ _ => rfl, fun _ => rfl, hpop⟩
  obtain ⟨t, _, ht, hu, m', rfl⟩ := sameButMem_kept.exec hreads ⟨m, rfl⟩
  exact ⟨t, _, ht, hu, rfl⟩

/-! ### FL is read by JEQ and JNE alone -/

/-- Two states that differ in FL alone. -/
def SameButFl (t u : State) : Prop := ∃ f : FlagState, u = { t with fl := f }

theorem sameButFl_kept : KeptByCommit SameButFl where
  write := by
    rintro t _ ⟨f, rfl⟩ w
    cases w with
    | fl f' => exact ⟨f', rfl⟩
    | reg | mem | emit | runState => exact ⟨f, rfl⟩
  setPc := by
    rintro t _ ⟨f, rfl⟩ p
    exact ⟨f, rfl⟩
  fault := by
    rintro t _ ⟨f, rfl⟩ r
    exact ⟨f, rfl⟩

/-- R32: two values of FL, with the same bit E for JEQ and JNE, make no difference outside FL. -/
theorem exec_sameButFl (i : Instr) (s : State) (f : FlagState)
    (he : (∃ ra, i = .jeq ra ∨ i = .jne ra) → f.e = s.fl.e) :
    ∃ t u : State, exec i s = .next t ∧ exec i { s with fl := f } = .next u ∧ SameButFl t u :=
  sameButFl_kept.exec ⟨rfl, rfl, rfl, fun _ _ => rfl, he, fun _ => rfl⟩ ⟨f, rfl⟩

/-! ### The output log and the fault registers are read by none -/

/-- Two states that differ in the fault registers and the output log alone, the logs being `out` and `out'` with the
same values appended. -/
def SameButLog (out out' : List Byte) (t u : State) : Prop :=
  ∃ (vs : List Byte) (c : FaultCause) (p info : Word9), t.output = out ++ vs ∧
    u = { t with output := out' ++ vs, faultCause := c, faultPc := p, faultInfo := info }

theorem sameButLog_kept (out out' : List Byte) : KeptByCommit (SameButLog out out') where
  write := by
    rintro t _ ⟨vs, c, p, info, ho, rfl⟩ w
    cases w with
    | emit v => exact ⟨vs ++ [v], c, p, info, by simp [applyWrite, ho], by simp [applyWrite, State.emit]⟩
    | reg | mem | fl | runState => exact ⟨vs, c, p, info, ho, rfl⟩
  setPc := by
    rintro t _ ⟨vs, c, p, info, ho, rfl⟩ q
    exact ⟨vs, c, p, info, ho, rfl⟩
  fault := by
    rintro t _ ⟨vs, c, p, info, ho, rfl⟩ f
    exact ⟨vs, f.cause, t.pc, f.info, ho, rfl⟩

/-- Settles O51: no rule reads the log or the fault registers, a PRN appends the same value to both logs, and a fault
entry writes the same registers in both. -/
theorem faultRegistersAndOutputAreNotRead : Obligations.FaultRegistersAndOutputAreNotRead := by
  intro i s out c p info
  obtain ⟨t, _, ht, hu, vs, c', p', info', ho, rfl⟩ :=
    (sameButLog_kept s.output out).exec (i := i) (s := s)
      (u := { s with output := out, faultCause := c, faultPc := p, faultInfo := info })
      ⟨rfl, rfl, rfl, fun _ _ => rfl, fun _ => rfl, fun _ => rfl⟩ ⟨[], c, p, info, by simp, by simp⟩
  exact ⟨t, _, ht, hu, rfl, vs, ho, rfl⟩

/-! ### A register that is not read -/

/-- Two states that differ in register `r` alone, where either both hold one value, or it has been left alone in
both: `x` in the first and `y` in the second. -/
def SameButReg (r : RegIdx) (x y : Byte) (t u : State) : Prop :=
  (∀ q : RegIdx, q ≠ r → u.reg q = t.reg q) ∧ (u.reg r = t.reg r ∨ (t.reg r = x ∧ u.reg r = y)) ∧
    ∃ rs : Vector Byte 8, u = { t with regs := rs }

theorem SameButReg.setReg {r : RegIdx} {x y : Byte} {t u : State} (h : SameButReg r x y t u) (q : RegIdx) (v : Byte) :
    SameButReg r x y (t.setReg q v) (u.setReg q v) := by
  obtain ⟨hothers, hself, rs, rfl⟩ := h
  refine ⟨fun q' hq' => ?_, ?_, rs.set q v, rfl⟩
  · rw [State.reg_setReg, State.reg_setReg, hothers q' hq']
  · by_cases hq : q = r
    · subst hq
      exact .inl (by rw [State.reg_setReg_self, State.reg_setReg_self])
    · simpa [State.reg_setReg, hq] using hself

theorem sameButReg_kept (r : RegIdx) (x y : Byte) : KeptByCommit (SameButReg r x y) where
  write := by
    rintro t _ ⟨hothers, hself, rs, rfl⟩ w
    cases w with
    | reg q v => exact SameButReg.setReg ⟨hothers, hself, rs, rfl⟩ q v
    | mem | fl | emit | runState => exact ⟨hothers, hself, rs, rfl⟩
  setPc := by
    rintro t _ ⟨hothers, hself, rs, rfl⟩ p
    exact ⟨hothers, hself, rs, rfl⟩
  fault := by
    rintro t _ ⟨hothers, hself, rs, rfl⟩ f
    exact ⟨hothers, hself, rs, rfl⟩

theorem readsAlike_setReg {i : Instr} {r : RegIdx} (s : State) (v : Byte) (h : i.readsReg r = false) :
    ReadsAlike i s (s.setReg r v) where
  pc := rfl
  stackLow := rfl
  stackHigh := rfl
  reg q hq := by
    refine State.reg_setReg_ne s (fun hrq => ?_) v
    rw [hrq, hq] at h
    cases h
  flag _ := rfl
  stackTop _ := rfl

/-- Settles O49: the rule answers the same effect or raise in both states, so the same values go to the same places
in both; the unread register is written alike or not at all. -/
theorem unreadRegistersHaveNoInfluence : Obligations.UnreadRegistersHaveNoInfluence := by
  intro i s r v hr
  have hstart : SameButReg r (s.reg r) v s (s.setReg r v) :=
    ⟨fun q hq => State.reg_setReg_ne s hq.symm v, .inr ⟨rfl, State.reg_setReg_self s r v⟩, _, rfl⟩
  obtain ⟨t, _, ht, hu, hothers, hself, rs, rfl⟩ :=
    (sameButReg_kept r (s.reg r) v).exec (readsAlike_setReg s v hr) hstart
  exact ⟨t, _, ht, hu, hothers, hself, rfl⟩

end Sys2Proof.Machine
end

section
/-! PROOFS. Frames: the writes each rule may list (R24), what the end of a step therefore leaves alone, and the
statements on registers, memory, FL and the output log. -/

namespace Sys2Proof

/-- The "registers written" column of R24. -/
def Instr.writesReg (i : Instr) (r : RegIdx) : Bool :=
  match i with
  | .ldi ra _ | .mul ra _ | .div ra _ | .add ra _ | .sub ra _ => ra == regByte r
  | .push _ => r == Config.spIndex
  | .pop ra => ra == regByte r || r == Config.spIndex
  | .prn _ | .hlt | .cmp _ _ | .jeq _ | .jne _ | .jmp _ => false

end Sys2Proof

namespace Sys2Proof.Machine

/-- The columns "registers written" and "other state written" of R24: which writes the rule of `i` may list in `s`. -/
def MayWrite (i : Instr) (s : State) : Write → Prop
  | .reg r _ => i.writesReg r = true
  | .mem a _ => (∃ ra, i = .push ra) ∧ a = (pushAddr s).toNat ∧ s.stackLow.toNat < s.sp.toNat
  | .fl _ => ∃ ra rb, i = .cmp ra rb
  | .emit _ => ∃ ra, i = .prn ra
  | .runState r => i = .hlt ∧ r = .halted

/-- Every write a rule lists is one of R24's for the instruction. -/
theorem mayWrite_of_ruleEffect {i : Instr} {s : State} {e : Effect} (h : ruleEffect i s = .ok e) :
    ∀ w ∈ e.writes, MayWrite i s w := by
  cases checked_of_ruleEffect_ok h with
  | jeq a | jne a | jmp a =>
    simp only [ruleEffect_jeq, ruleEffect_jne, ruleEffect_jmp, Except.ok.injEq] at h
    subst h
    simp
  | ldi a imm | prn a | hlt | mul a b | add a b | sub a b | cmp a b =>
    simp only [ruleEffect_ldi, ruleEffect_prn, ruleEffect_hlt, ruleEffect_mul, ruleEffect_add, ruleEffect_sub,
      ruleEffect_cmp, Except.ok.injEq] at h
    subst h
    simp [MayWrite, Instr.writesReg]
  | div a b =>
    rw [ruleEffect_div] at h
    split at h
    · cases h
    · cases h
      simp [MayWrite, Instr.writesReg]
  | push a =>
    rw [ruleEffect_push] at h
    split at h
    · cases h
    · next hsp =>
      cases h
      simp [MayWrite, Instr.writesReg, Nat.lt_of_not_le hsp]
  | pop a =>
    rw [ruleEffect_pop] at h
    split at h
    · cases h
    · cases h
      simp [MayWrite, Instr.writesReg]

/-! ### What the end of an instruction leaves alone -/

theorem foldl_applyWrite_induction {P : State → Prop} {ws : List Write} {s : State} (hs : P s)
    (hw : ∀ w ∈ ws, ∀ u, P u → P (applyWrite u w)) : P (ws.foldl applyWrite s) := by
  induction ws generalizing s with
  | nil => exact hs
  | cons w ws ih =>
    exact ih (hw w List.mem_cons_self s hs) fun w' hw' => hw w' (List.mem_cons_of_mem w hw')

/-- What holds before a commit and is kept by every write the instruction may list, and by a new PC, holds after. -/
theorem commit_induction {i : Instr} {s : State} {e : Effect} {P : State → Prop} (h : ruleEffect i s = .ok e)
    (hs : P s) (hw : ∀ w, MayWrite i s w → ∀ u, P u → P (applyWrite u w)) (hpc : ∀ u p, P u → P (u.setPc p)) :
    P (commit e s) :=
  hpc _ _ (foldl_applyWrite_induction hs fun w hmem => hw w (mayWrite_of_ruleEffect h w hmem))

/-- A view of the state that no write of the instruction, no new PC and no fault entry changes. -/
theorem exec_keeps {α : Type} (view : State → α) {i : Instr} {s t : State} (h : exec i s = .next t)
    (hw : ∀ w, MayWrite i s w → ∀ u, view (applyWrite u w) = view u) (hpc : ∀ u p, view (u.setPc p) = view u)
    (hf : ∀ f, view (takeFault f s) = view s) : view t = view s := by
  obtain ⟨e, he, rfl⟩ | ⟨f, -, rfl⟩ := exec_rule_cases h
  · exact commit_induction (P := fun u => view u = view s) he rfl (fun w hm u hu => (hw w hm u).trans hu)
      fun u p hu => (hpc u p).trans hu
  · exact hf f

section
variable {i : Instr} {s t : State}

/-- R24: an instruction changes no register outside its column. -/
theorem exec_reg (h : exec i s = .next t) {r : RegIdx} (hr : i.writesReg r = false) : t.reg r = s.reg r := by
  refine exec_keeps (fun u => u.reg r) h (fun w hm u => ?_) (fun _ _ => rfl) fun _ => rfl
  cases w with
  | reg q v =>
    refine State.reg_setReg_ne u (fun hq => ?_) v
    rw [← hq, show i.writesReg q = true from hm] at hr
    cases hr
  | mem | fl | emit | runState => rfl

theorem exec_regs (h : exec i s = .next t) (hr : ∀ r, i.writesReg r = false) : t.regs = s.regs :=
  Vector.ext fun k hk => exec_reg h (hr ⟨k, hk⟩)

/-- R32: only CMP changes FL. -/
theorem exec_fl (h : exec i s = .next t) (hi : ∀ ra rb, i ≠ .cmp ra rb) : t.fl = s.fl := by
  refine exec_keeps State.fl h (fun w hm u => ?_) (fun _ _ => rfl) fun _ => rfl
  cases w with
  | fl f =>
    obtain ⟨ra, rb, rfl⟩ := hm
    exact absurd rfl (hi ra rb)
  | reg | mem | emit | runState => rfl

/-- R43: only PRN changes the output log. -/
theorem exec_output (h : exec i s = .next t) (hi : ∀ ra, i ≠ .prn ra) : t.output = s.output := by
  refine exec_keeps State.output h (fun w hm u => ?_) (fun _ _ => rfl) fun _ => rfl
  cases w with
  | emit v =>
    obtain ⟨ra, rfl⟩ := hm
    exact absurd rfl (hi ra)
  | reg | mem | fl | runState => rfl

/-- R46: only a PUSH above the low limit changes a byte of memory, the one it stores to. -/
theorem exec_mem_read (h : exec i s = .next t) {a : Nat}
    (ha : ¬ ((∃ ra, i = .push ra) ∧ a = (pushAddr s).toNat ∧ s.stackLow.toNat < s.sp.toNat)) :
    t.mem.read a = s.mem.read a := by
  refine exec_keeps (fun u => u.mem.read a) h (fun w hm u => ?_) (fun _ _ => rfl) fun _ => rfl
  cases w with
  | mem p v =>
    obtain ⟨hpush, rfl, hsp⟩ := hm
    exact Memory.read_write_ne u.mem v fun hp => ha ⟨hpush, hp, hsp⟩
  | reg | fl | emit | runState => rfl

/-- R82, R104: a commit leaves the fault registers, and leaves STATE but for HLT. -/
theorem commit_control {e : Effect} (he : ruleEffect i s = .ok e) :
    (commit e s).faultCause = s.faultCause ∧ (commit e s).faultPc = s.faultPc ∧
      (commit e s).faultInfo = s.faultInfo ∧ (i ≠ .hlt → (commit e s).runState = s.runState) := by
  refine commit_induction (P := fun u => u.faultCause = s.faultCause ∧ u.faultPc = s.faultPc ∧
    u.faultInfo = s.faultInfo ∧ (i ≠ .hlt → u.runState = s.runState)) he ⟨rfl, rfl, rfl, fun _ => rfl⟩
    (fun w hm u hu => ?_) fun _ _ hu => hu
  cases w with
  | runState r =>
    obtain ⟨hc, hp, hi, -⟩ := hu
    exact ⟨hc, hp, hi, fun hne => absurd hm.1 hne⟩
  | reg | mem | fl | emit => exact hu

/-- An executed instruction leaves the fault registers, and STATE but for HLT, or it enters Faulted (R109). -/
theorem exec_faultRegs_or_faulted (h : exec i s = .next t) :
    (t.faultCause = s.faultCause ∧ t.faultPc = s.faultPc ∧ t.faultInfo = s.faultInfo ∧
      (i ≠ .hlt → t.runState = s.runState)) ∨ ∃ f : Raise, t = takeFault f s := by
  obtain ⟨e, he, rfl⟩ | ⟨f, -, rfl⟩ := exec_rule_cases h
  · exact .inl (commit_control he)
  · exact .inr ⟨f, rfl⟩

/-- The same for an instruction that is no HLT, with the fault entry as R109 describes it. -/
theorem exec_control_or_faultedWith (h : exec i s = .next t) (hi : i ≠ .hlt) :
    (t.runState = s.runState ∧ t.faultCause = s.faultCause ∧ t.faultPc = s.faultPc ∧ t.faultInfo = s.faultInfo) ∨
      ∃ c info, t = s.faultedWith c info := by
  obtain ⟨hc, hp, hinfo, hr⟩ | ⟨f, rfl⟩ := exec_faultRegs_or_faulted h
  · exact .inl ⟨hr hi, hc, hp, hinfo⟩
  · exact .inr ⟨f.cause, f.info, rfl⟩

end

/-! ### The frame statements -/

/-- Settles O45: R24's columns for these five name Ra alone. -/
theorem registerResultInstructionsFrame : Obligations.RegisterResultInstructionsFrame := by
  intro ra rb i s t hi h
  have hcols : (∀ r, ra ≠ regByte r → i.writesReg r = false) ∧ (∀ a b, i ≠ .cmp a b) ∧ (∀ a, i ≠ .prn a) ∧
      (∀ a, i ≠ .push a) ∧ i ≠ .hlt := by
    simp only [List.mem_cons, List.not_mem_nil, or_false] at hi
    rcases hi with rfl | rfl | rfl | rfl | rfl <;> simp [Instr.writesReg]
  obtain ⟨hreg, hcmp, hprn, hpush, hhlt⟩ := hcols
  obtain ⟨hlow, hhigh⟩ := exec_limits h
  exact ⟨fun r hr => exec_reg h (hreg r hr), exec_fl h hcmp, exec_output h hprn,
    fun a => exec_mem_read h fun ⟨⟨ra', hp⟩, _⟩ => hpush ra' hp, hlow, hhigh, exec_control_or_faultedWith h hhlt⟩

/-- Settles O46: R24's columns for these six name no register and no memory; FL, the output log and STATE have one
writer each. -/
theorem readingInstructionsFrame : Obligations.ReadingInstructionsFrame := by
  intro ra rb i s t hi h
  have hcols : (∀ r, i.writesReg r = false) ∧ (∀ a, i ≠ .push a) ∧ (i ≠ .cmp ra rb → ∀ a b, i ≠ .cmp a b) ∧
      (i ≠ .prn ra → ∀ a, i ≠ .prn a) := by
    simp only [List.mem_cons, List.not_mem_nil, or_false] at hi
    rcases hi with rfl | rfl | rfl | rfl | rfl | rfl <;> simp [Instr.writesReg]
  obtain ⟨hreg, hpush, hcmp, hprn⟩ := hcols
  obtain ⟨hlow, hhigh⟩ := exec_limits h
  exact ⟨exec_regs h hreg, fun a => exec_mem_read h fun ⟨⟨ra', hp⟩, _⟩ => hpush ra' hp, hlow, hhigh,
    fun hne => exec_fl h (hcmp hne), fun hne => exec_output h (hprn hne),
    (exec_faultRegs_or_faulted h).imp id fun ⟨f, hf⟩ => ⟨f.cause, f.info, hf⟩⟩

/-- Settles O47: PUSH has SP alone in its register column, and its one memory write is at `pushAddr`. -/
theorem pushFrame : Obligations.PushFrame := by
  intro ra s t h
  obtain ⟨hlow, hhigh⟩ := exec_limits h
  exact ⟨fun r hr => exec_reg h (by simpa [Instr.writesReg] using hr), exec_fl h (by simp), exec_output h (by simp),
    fun a ha => exec_mem_read h fun ⟨_, hp, _⟩ => ha hp, hlow, hhigh, exec_control_or_faultedWith h (by simp)⟩

/-- Settles O48: POP has SP and Ra in its register column and writes no memory. -/
theorem popFrame : Obligations.PopFrame := by
  intro ra s t h
  obtain ⟨hlow, hhigh⟩ := exec_limits h
  exact ⟨fun r hsp hra => exec_reg h (by simp [Instr.writesReg, hsp, hra]), exec_fl h (by simp),
    exec_output h (by simp), fun a => exec_mem_read h (by simp), hlow, hhigh,
    exec_control_or_faultedWith h (by simp)⟩

/-! ### Frames of a step -/

/-- A fetched instruction's bytes are the bytes at PC. -/
theorem codeByte_of_fetch {s : State} {i : Instr} (h : fetch s = .ok i) {k : Nat} {b : Byte}
    (hk : (encode i)[k]? = some b) : s.codeByte k = b := by
  obtain ⟨-, hbytes⟩ := bytes_of_fetch h
  obtain ⟨-, hb⟩ := hbytes k (List.getElem?_eq_some_iff.mp hk).1
  exact Option.some.inj (hb.symm.trans hk)

theorem opcode_of_fetch {s : State} {i : Instr} (h : fetch s = .ok i) : s.codeByte 0 = i.opcode :=
  codeByte_of_fetch h rfl

/-- A view of the state that no fault entry changes is changed by a step only if a Running core executes the
instruction at PC. -/
theorem executes_of_step_changes {α : Type} (view : State → α) (hf : ∀ u f, view (takeFault f u) = view u)
    {s t : State} (h : step s = .next t) (hne : view t ≠ view s) :
    s.runState = .running ∧ ∃ i, fetch s = .ok i ∧ exec i s = .next t := by
  obtain ⟨-, rfl⟩ | ⟨-, r, -, rfl⟩ | hexec := step_cases h
  · exact absurd rfl hne
  · exact absurd (hf s r) hne
  · exact hexec

/-- Settles O13: the byte is changed by an executed instruction, so by a PUSH, which stores at SP - 1 with SP above
the low limit and therefore above 0. -/
theorem onlyPushChangesMemory : Obligations.OnlyPushChangesMemory := by
  intro s t h a hne
  obtain ⟨hr, i, hf, hexec⟩ := executes_of_step_changes (fun u => u.mem.read a) (fun _ _ => rfl) h hne
  obtain ⟨⟨ra, rfl⟩, rfl, hsp⟩ := not_not.mp fun hn => hne (exec_mem_read hexec hn)
  refine ⟨hr, opcode_of_fetch hf, rfl, ?_⟩
  have hpos : (1#8).toNat ≤ s.sp.toNat := by
    rw [BitVec.toNat_ofNat]
    omega
  rw [pushAddr, BitVec.toNat_sub_of_le hpos, BitVec.toNat_ofNat]
  omega

/-- Settles O25: the log is changed by an executed instruction, so by a PRN; its byte names a register, or the step
enters Faulted and the log stays. -/
theorem onlyPrnExtendsTheOutput : Obligations.OnlyPrnExtendsTheOutput := by
  intro s t h
  refine or_iff_not_imp_left.mpr fun hne => ?_
  obtain ⟨hr, i, hf, hexec⟩ := executes_of_step_changes State.output (fun _ _ => rfl) h hne
  obtain ⟨ra, rfl⟩ : ∃ ra, i = .prn ra := by
    by_contra hn
    exact hne (exec_output hexec fun ra hi => hn ⟨ra, hi⟩)
  obtain ⟨e, he, rfl⟩ | ⟨f, -, rfl⟩ := exec_rule_cases hexec
  · cases checked_of_ruleEffect_ok he with
    | prn r =>
      cases (ruleEffect_prn r s).symm.trans he
      exact ⟨hr, opcode_of_fetch hf, r, codeByte_of_fetch hf (k := 1) rfl, rfl⟩
  · exact absurd rfl hne

/-- R95: CMP's three answers have one bit each. -/
theorem bits_compareFlags (a b : Byte) : (compareFlags a b).bits ∈ [0b001#3, 0b010#3, 0b100#3] := by
  unfold compareFlags
  split
  · decide
  · split <;> decide

/-- Settles O33: a step that changes FL executes a CMP and commits, CMP writes a comparison's answer, and no rule but
those of JEQ and JNE reads FL. -/
theorem flagsAreWrittenByCmpAndReadByBranches : Obligations.FlagsAreWrittenByCmpAndReadByBranches := by
  refine ⟨fun s t h hne => ?_, fun s t a b h => ?_, fun i s f he => ?_⟩
  · obtain ⟨hr, i, hf, hexec⟩ := executes_of_step_changes State.fl (fun _ _ => rfl) h hne
    obtain ⟨ra, rb, rfl⟩ : ∃ ra rb, i = .cmp ra rb := by
      by_contra hn
      exact hne (exec_fl hexec fun ra rb hi => hn ⟨ra, rb, hi⟩)
    obtain ⟨hrun, -⟩ | ⟨c, info, rfl⟩ := exec_control_or_faultedWith hexec (by simp)
    · exact ⟨hr, hrun.trans hr, opcode_of_fetch hf⟩
    · exact absurd rfl hne
  · rw [exec_eq_finish_ruleEffect, ruleEffect_cmp] at h
    cases h
    exact bits_compareFlags (s.reg a) (s.reg b)
  · obtain ⟨t, _, ht, hu, f', rfl⟩ := exec_sameButFl i s f he
    exact ⟨t, _, ht, hu, rfl⟩

end Sys2Proof.Machine
end

section
/-! PROOFS. The fault a step enters is the one the order of R107 gives for the bytes at PC, and the invariant. -/

namespace Sys2Proof.Machine

/-! ### The order of the checks, over the bytes at PC (R107) -/

/-- The fault order looks at neither STATE nor the fault registers. -/
@[simp] theorem takeFault_stepFault (r : Raise) (s : State) : (takeFault r s).stepFault = s.stepFault := rfl

/-- R107 items 1 to 3: a fetch that fails raises the fault the order gives. -/
theorem stepFault_of_fetch_error {s : State} {r : Raise} (h : fetch s = .error r) :
    s.stepFault = some (r.cause, r.info) := by
  obtain ⟨hpc, rfl⟩ | ⟨hpc, hop, rfl⟩ | ⟨hpc, hop, hend, rfl⟩ := fetch_error_cases h
  · simp [State.stepFault, hpc, Raise.cause, Raise.info]
  · simp [State.stepFault, Nat.not_lt.mpr hpc, hop, Raise.cause, Raise.info]
  · simp [State.stepFault, Nat.not_lt.mpr hpc, hop, hend, Raise.cause, Raise.info]

/-- The bytes of a fetched instruction end at address 255 or below. -/
theorem pc_add_operands_of_fetch {s : State} {i : Instr} (h : fetch s = .ok i) :
    s.pc.toNat + i.operandBytes.length ≤ 255 := by
  obtain ⟨-, hbytes⟩ := bytes_of_fetch h
  exact (hbytes i.operandBytes.length (by simp [encode])).1

/-- Where an instruction is fetched, items 1 to 3 of R107 pass, and items 4 and 5 are left. -/
theorem stepFault_of_fetch {s : State} {i : Instr} (h : fetch s = .ok i) :
    s.stepFault = s.badCodeByte.elim s.ownFault fun b => some (.invalidRegister, zext9 b) := by
  have hend := pc_add_operands_of_fetch h
  have hop := opcode_of_fetch h
  have hpc : ¬ 255 < s.pc.toNat := by omega
  have hlegal : ¬ s.codeByte 0 ∉ legalOpcodes := not_not.mpr (hop ▸ opcode_mem_legal i)
  have hin : ¬ 255 < s.pc.toNat + operandCount (s.codeByte 0) := by
    rw [hop, ← length_operandBytes]
    omega
  rw [State.stepFault, if_neg hpc, if_neg hlegal, if_neg hin]
  cases s.badCodeByte <;> rfl

/-- R79 over the bytes at PC. -/
theorem badCodeByte_of_fetch {s : State} {i : Instr} (h : fetch s = .ok i) : s.badCodeByte = i.badRegByte := by
  have h0 := opcode_of_fetch h
  cases i with
  | hlt => simp [State.badCodeByte, h0, Instr.opcode, opcodesZ, Instr.badRegByte, Instr.regBytes]
  | ldi ra | prn ra | push ra | pop ra | jeq ra | jne ra | jmp ra =>
    have h1 : s.codeByte 1 = ra := codeByte_of_fetch h rfl
    rw [badRegByte_of_one rfl]
    simp [State.badCodeByte, h0, h1, Instr.opcode, opcodesZ, opcodesRR]
  | mul ra rb | div ra rb | add ra rb | sub ra rb | cmp ra rb =>
    have h1 : s.codeByte 1 = ra := codeByte_of_fetch h rfl
    have h2 : s.codeByte 2 = rb := codeByte_of_fetch h rfl
    rw [badRegByte_of_two rfl]
    simp [State.badCodeByte, h0, h1, h2, Instr.opcode, opcodesZ, opcodesRR]

@[simp] theorem regOfByte_regByte (s : State) (r : RegIdx) : s.regOfByte (regByte r) = s.reg r := by
  rw [State.regOfByte, toNat_regByte, State.reg]
  simp [List.getD]

theorem zext9_regByte (r : RegIdx) : zext9 (regByte r) = BitVec.ofNat 9 r.val := by
  have := r.isLt
  refine BitVec.eq_of_toNat_eq ?_
  rw [toNat_zext9, toNat_regByte, BitVec.toNat_ofNat]
  omega

/-- R107 item 5 over the bytes at PC: the own checks of DIV, PUSH and POP. -/
theorem ownFault_of_fetch {s : State} {i : Instr} {f : Raise} (h : fetch s = .ok i) (hc : i.Checked)
    (hf : ruleEffect i s = .error f) : s.ownFault = some (f.cause, f.info) := by
  have h0 := opcode_of_fetch h
  cases hc with
  | div a b =>
    have h2 : s.codeByte 2 = regByte b := codeByte_of_fetch h rfl
    rw [ruleEffect_div] at hf
    split at hf
    · next hzero =>
      cases hf
      simp [State.ownFault, h0, h2, Instr.opcode, hzero, zext9_regByte, Raise.cause, Raise.info]
    · cases hf
  | push a =>
    rw [ruleEffect_push] at hf
    split at hf
    · next hsp =>
      cases hf
      simp [State.ownFault, h0, Instr.opcode, hsp, Raise.cause, Raise.info]
    · cases hf
  | pop a =>
    rw [ruleEffect_pop] at hf
    split at hf
    · next hsp =>
      cases hf
      simp [State.ownFault, h0, Instr.opcode, hsp, Raise.cause, Raise.info]
    · cases hf
  | _ => simp at hf

/-- R107 items 4 and 5: a fetched instruction whose rule raises raises the fault the order gives. -/
theorem stepFault_of_ruleEffect_error {s : State} {i : Instr} {f : Raise} (h : fetch s = .ok i)
    (hf : ruleEffect i s = .error f) : s.stepFault = some (f.cause, f.info) := by
  rw [stepFault_of_fetch h, badCodeByte_of_fetch h]
  cases hb : i.badRegByte with
  | some b =>
    rw [ruleEffect_bad s hb] at hf
    cases hf
    rfl
  | none => exact ownFault_of_fetch h (checked_of_badRegByte_none hb) hf

/-! ### The invariant at reset and through a step -/

/-- Settles O8: reset is Running with empty memory, and every clause is a comparison of reset values. -/
theorem invariantHoldsAtReset : Obligations.InvariantHoldsAtReset where
  memWf := rfl
  pcRange := by decide
  limits := by decide
  noFault _ := ⟨rfl, rfl, rfl⟩
  halted h := by cases h
  faulted h := by cases h

/-- A fault entry that names the fault of the order keeps the invariant, whatever it held of the fault registers. -/
theorem inv_takeFault {s : State} (hs : s.Inv) {f : Raise} (hf : s.stepFault = some (f.cause, f.info)) :
    (takeFault f s).Inv where
  memWf := hs.memWf
  pcRange := hs.pcRange
  limits := hs.limits
  noFault h := absurd rfl h
  halted h := by cases h
  faulted _ := ⟨rfl, hf⟩

/-- R38: a commit keeps the canonical memory, since a PUSH stores at an 8-bit address. -/
theorem commit_wf {i : Instr} {s : State} {e : Effect} (he : ruleEffect i s = .ok e) (hm : s.mem.wf = true) :
    (commit e s).mem.wf = true := by
  refine commit_induction (P := fun u => u.mem.wf = true) he hm (fun w hw u hu => ?_) fun _ _ hu => hu
  cases w with
  | mem a v =>
    obtain ⟨-, rfl, -⟩ := hw
    exact Memory.write_wf hu v (pushAddr s).isLt
  | reg | fl | emit | runState => exact hu

/-- R83: the next PC of a rule is the address after the instruction, a jump target, or HLT's own address. -/
theorem nextPc_cases {i : Instr} {s : State} {e : Effect} (he : ruleEffect i s = .ok e) :
    e.nextPc = s.pcPlus i.length ∨ (∃ r, e.nextPc = zext9 (s.reg r)) ∨ (i = .hlt ∧ e.nextPc = s.pc) := by
  cases checked_of_ruleEffect_ok he with
  | hlt =>
    cases he
    exact .inr (.inr ⟨rfl, rfl⟩)
  | jmp a =>
    cases (ruleEffect_jmp a s).symm.trans he
    exact .inr (.inl ⟨a, rfl⟩)
  | jeq a =>
    cases (ruleEffect_jeq a s).symm.trans he
    cases s.fl.e
    · exact .inl rfl
    · exact .inr (.inl ⟨a, rfl⟩)
  | jne a =>
    cases (ruleEffect_jne a s).symm.trans he
    cases s.fl.e
    · exact .inr (.inl ⟨a, rfl⟩)
    · exact .inl rfl
  | ldi a imm | prn a | mul a b | add a b | sub a b | cmp a b =>
    simp only [ruleEffect_ldi, ruleEffect_prn, ruleEffect_mul, ruleEffect_add, ruleEffect_sub, ruleEffect_cmp,
      Except.ok.injEq] at he
    subst he
    exact .inl rfl
  | push a | pop a | div a b =>
    simp only [ruleEffect_push, ruleEffect_pop, ruleEffect_div] at he
    split at he
    · cases he
    · cases he
      exact .inl rfl

/-- R27: the next PC of a fetched instruction is 256 at most. -/
theorem nextPc_le {i : Instr} {s : State} {e : Effect} (hf : fetch s = .ok i) (he : ruleEffect i s = .ok e) :
    e.nextPc.toNat ≤ 256 := by
  have hend := pc_add_operands_of_fetch hf
  have hlen : i.length = 1 + i.operandBytes.length := rfl
  obtain hpc | ⟨r, hpc⟩ | ⟨-, hpc⟩ := nextPc_cases he
  · rw [hpc, toNat_pcPlus s (by omega)]
    omega
  · have := (s.reg r).isLt
    rw [hpc, toNat_zext9]
    omega
  · rw [hpc]
    omega

/-- R104: a Running core that commits stays Running, or is Halted at the HLT it stands at. -/
theorem running_or_halted_of_commit {i : Instr} {s : State} {e : Effect} (hr : s.runState = .running)
    (hf : fetch s = .ok i) (he : ruleEffect i s = .ok e) :
    (commit e s).runState = .running ∨
      ((commit e s).runState = .halted ∧ (commit e s).pc.toNat ≤ 255 ∧ (commit e s).codeByte 0 = 0x01#8) := by
  by_cases hi : i = .hlt
  · subst hi
    cases he
    exact .inr ⟨rfl, (bytes_of_fetch hf).1, opcode_of_fetch hf⟩
  · obtain ⟨-, -, -, hrun⟩ := commit_control he
    exact .inl ((hrun hi).trans hr)

/-- A committed instruction of a Running core keeps the invariant. -/
theorem inv_commit {i : Instr} {s : State} {e : Effect} (hs : s.Inv) (hr : s.runState = .running)
    (hf : fetch s = .ok i) (he : ruleEffect i s = .ok e) : (commit e s).Inv := by
  have hend := running_or_halted_of_commit hr hf he
  obtain ⟨hcause, hfpc, hinfo, -⟩ := commit_control he
  obtain ⟨hlow, hhigh⟩ := commit_limits e s
  exact
    { memWf := commit_wf he hs.memWf
      pcRange := nextPc_le hf he
      limits := by rw [hlow, hhigh]; exact hs.limits
      noFault := fun _ => by
        rw [hcause, hfpc, hinfo]
        exact hs.noFault (by simp [hr])
      halted := fun hh => by
        obtain hrun | ⟨-, hhalt⟩ := hend
        · cases hrun.symm.trans hh
        · exact hhalt
      faulted := fun hh => by
        obtain hrun | ⟨hhalt, -⟩ := hend
        · cases hrun.symm.trans hh
        · cases hhalt.symm.trans hh }

/-- Settles O10: a step leaves the state, enters Faulted by a failed fetch or by the rule's raise, each the fault of
the order of R107, or commits the fetched instruction's effect. -/
theorem stepKeepsTheInvariant : Obligations.StepKeepsTheInvariant := by
  intro s t hs h
  obtain ⟨-, rfl⟩ | ⟨-, r, hf, rfl⟩ | ⟨hr, i, hf, hexec⟩ := step_cases h
  · exact hs
  · exact inv_takeFault hs (stepFault_of_fetch_error hf)
  · obtain ⟨e, he, rfl⟩ | ⟨f, hraise, rfl⟩ := exec_rule_cases hexec
    · exact inv_commit hs hr hf he
    · exact inv_takeFault hs (stepFault_of_ruleEffect_error hf hraise)

end Sys2Proof.Machine
end

section
/-! PROOFS. Reset, the terminal states, and the numbers the host reads (R31, R34, R35, R44). -/

namespace Sys2Proof.Machine

/-- Settles O6: both states take every field from `State.reset`, and `assertReset` keeps the memory. -/
theorem resetGivesTheTableValues : Obligations.ResetGivesTheTableValues := by
  refine ⟨Memory.read_nil, fun s t ht => ?_⟩
  obtain rfl | rfl := ht
  · exact ⟨rfl, rfl, rfl, rfl, rfl, rfl, rfl, rfl, rfl⟩
  · exact ⟨rfl, rfl, rfl, rfl, rfl, rfl, rfl, rfl, rfl⟩

/-- R35: a core that is not Running stays as it is for any number of steps. -/
theorem core_run_of_not_running {s : State} (hr : s.runState ≠ .running) (k : Nat) :
    Sys2Proof.core.run k s = .next s := by
  induction k with
  | zero => rfl
  | succ k ih => rw [core_run_of_step (step_of_not_running hr), ih]

/-- Settles O21, by induction on the number of steps. -/
theorem haltedAndFaultedChangeNothing : Obligations.HaltedAndFaultedChangeNothing :=
  fun _ hr => ⟨core_run_of_not_running hr, rfl⟩

/-- R31: JNE's observed test agrees with bit E clear in each of the four states. -/
theorem zero_or_gt_one_iff_e (f : FlagState) : (f.bits = 0#3 ∨ 1#3 < f.bits) ↔ f.e = false := by
  cases f <;> decide

/-- Settles O32: `e`, `g` and `l` are bits 0, 1 and 2 by definition. -/
theorem flagLayoutIsOneHot : Obligations.FlagLayoutIsOneHot :=
  ⟨rfl, rfl, rfl, rfl, fun f => ⟨rfl, rfl, rfl, zero_or_gt_one_iff_e f⟩⟩

/-- R34: the value 3 is never held. -/
theorem code_ne_three (r : RunState) : r.code ≠ 3#2 := by
  cases r <;> decide

/-- Settles O52: the outputs are built from the fields and their codes. -/
theorem hostReadsStateByItsCode : Obligations.HostReadsStateByItsCode :=
  ⟨rfl, rfl, rfl, code_ne_three, rfl, fun _ => rfl⟩

end Sys2Proof.Machine
end

section
/-! PROOFS. Reads after a sequence of writes (R52), and the fetch of a byte that a PUSH has just stored (R56, R129). -/

namespace Sys2Proof.Machine

/-! ### A sequence of writes (R52) -/

/-- Writes at byte addresses, the first of the list first. -/
def Memory.writeAll (m : Memory) (ws : List (Byte × Byte)) : Memory :=
  ws.foldl (fun m w => Memory.write m w.1.toNat w.2) m

theorem Memory.writeAll_concat (m : Memory) (ws : List (Byte × Byte)) (w : Byte × Byte) :
    m.writeAll (ws ++ [w]) = (m.writeAll ws).write w.1.toNat w.2 :=
  List.foldl_append ..

theorem Memory.writeAll_wf {m : Memory} (hm : m.wf = true) (ws : List (Byte × Byte)) :
    (m.writeAll ws).wf = true := by
  induction ws generalizing m with
  | nil => exact hm
  | cons w ws ih => exact ih (write_wf hm w.2 w.1.isLt)

/-- Settles O12, by induction on the sequence from its last write: that write gives the byte where it is at the address
read, and elsewhere leaves what the earlier writes gave. -/
theorem readGivesTheMostRecentWrite : Obligations.ReadGivesTheMostRecentWrite := by
  intro m ws a hm
  change (m.writeAll ws).read a = _
  induction ws using List.reverseRecOn with
  | nil => rfl
  | append_singleton ws w ih =>
    rw [Memory.writeAll_concat, List.reverse_concat]
    by_cases ha : w.1.toNat = a
    · subst ha
      rw [List.find?_cons_of_pos (by simp)]
      exact Memory.read_write_self (Memory.writeAll_wf hm ws) _ _
    · rw [List.find?_cons_of_neg (by simpa using ha), Memory.read_write_ne _ _ (Ne.symm ha)]
      exact ih

/-! ### The step on the bytes at PC -/

/-- R76 to R78: the bytes at PC are fetched as the instruction they encode, where they end at address 255 or below. -/
theorem fetch_of_encode_eq {s : State} {i : Instr} (hend : s.pc.toNat + i.operandBytes.length ≤ 255)
    (hbytes : encode i = (List.range i.length).map s.codeByte) : fetch s = .ok i := by
  refine fetch_of_bytes fun k hk => ?_
  rw [hbytes, List.length_map, List.length_range] at hk
  have hlen : i.length = 1 + i.operandBytes.length := rfl
  refine ⟨by omega, ?_⟩
  rw [hbytes, List.getElem?_map, List.getElem?_range hk, Option.map_some]

/-- R77: a byte at PC that is no opcode. -/
theorem step_of_illegalOpcode {s : State} (hr : s.runState = .running) (hpc : s.pc.toNat ≤ 255)
    (hop : s.codeByte 0 ∉ legalOpcodes) :
    step s = .next (s.faultedWith .illegalOpcode (zext9 (s.codeByte 0))) := by
  have hfetch : fetch s = .error (.illegalOpcode (s.codeByte 0)) := by
    rw [fetch, decodeWith_ok _ (fetchByte_in s (k := 0) hpc), shapeOf_eq_none.mpr hop]
  exact step_of_fetch_error hr hfetch

/-- R104: a HLT at PC. -/
theorem step_of_hlt {s : State} (hr : s.runState = .running) (hpc : s.pc.toNat ≤ 255) (hop : s.codeByte 0 = 0x01#8) :
    step s = .next { s with runState := .halted } := by
  have hfetch : fetch s = .ok .hlt := fetch_of_encode_eq hpc (congrArg (fun b => [b]) hop.symm)
  exact step_of_fetch hr hfetch

/-- What a PUSH that passes its checks leaves (R98). -/
def State.pushed (s : State) (a : RegIdx) : State :=
  commit ⟨[.mem (pushAddr s).toNat (s.reg a), .reg Config.spIndex (s.sp - 1#8)], s.pcPlus 2⟩ s

/-- R98: a PUSH of a register at PC, with SP above its limit. -/
theorem step_of_push {s : State} {a : RegIdx} (hr : s.runState = .running) (hpc : s.pc.toNat ≤ 254)
    (h0 : s.codeByte 0 = 0x45#8) (h1 : s.codeByte 1 = regByte a) (hsp : s.stackLow.toNat < s.sp.toNat) :
    step s = .next (s.pushed a) := by
  have hbytes : [0x45#8, regByte a] = [s.codeByte 0, s.codeByte 1] := by rw [h0, h1]
  have hfetch : fetch s = .ok (.push (regByte a)) :=
    fetch_of_encode_eq (show s.pc.toNat + 1 ≤ 255 by omega) hbytes
  rw [step_of_fetch hr hfetch, exec_eq_finish_ruleEffect, ruleEffect_push, if_neg (Nat.not_le.mpr hsp), finish_ok,
    State.pushed]

/-! ### The fetch after a PUSH (R56, R129) -/

/-- The pushed byte stands in memory where the next fetch reads, so a fetch that reaches its address reads it. -/
theorem codeByte_pushed {s : State} (hm : s.mem.wf = true) (a : RegIdx) {k : Nat}
    (hk : (s.pushed a).pc.toNat + k = (pushAddr s).toNat) : (s.pushed a).codeByte k = s.reg a := by
  rw [State.codeByte, hk]
  exact Memory.read_write_self hm (pushAddr s).toNat (s.reg a)

/-- Settles O14: the PUSH commits, memory holds its byte for the next fetch, and where PC reaches that byte the next
step is the step on an illegal opcode or on a HLT. -/
theorem fetchSeesThePushedByte : Obligations.FetchSeesThePushedByte := by
  intro s a hr hm hpc h0 h1 hsp
  refine ⟨s.pushed a, step_of_push hr hpc h0 h1 hsp, fun k hk => codeByte_pushed hm a hk, fun hat => ?_⟩
  have hnext : (s.pushed a).pc.toNat = (pushAddr s).toNat := (toNat_pcPlus s (by omega)).trans hat
  have hrange : (s.pushed a).pc.toNat ≤ 255 := by
    have := (pushAddr s).isLt
    omega
  have hbyte : (s.pushed a).codeByte 0 = s.reg a := codeByte_pushed hm a hnext
  have hrun : (s.pushed a).runState = .running := hr
  constructor
  · intro hop
    rw [← hbyte] at hop ⊢
    exact step_of_illegalOpcode hrun hrange hop
  · exact fun hop => step_of_hlt hrun hrange (hbyte.trans hop)

end Sys2Proof.Machine
end

section
/-! PROOFS. The decoder over a list of bytes: its inverse is `encode` (R58 to R64), and its answer on a byte that is no
opcode (R66). -/

namespace Sys2Proof

/-! ### Decoding and encoding (R58 to R62) -/

theorem listByte_eq_ok {bs : List Byte} {k : Nat} {b : Byte} : listByte bs k = .ok b ↔ bs[k]? = some b := by
  unfold listByte
  cases bs[k]? <;> simp

theorem length_encode (i : Instr) : (encode i).length = i.length :=
  Nat.add_comm _ 1

theorem decode_eq_ok {bs rest : List Byte} {i : Instr} :
    decode bs = .ok (i, rest) ↔ decodeWith .illegalOpcode (listByte bs) = .ok i ∧ bs.drop i.length = rest := by
  unfold decode
  cases decodeWith DecodeError.illegalOpcode (listByte bs) with
  | error e => simp
  | ok j =>
    simp only [Except.ok.injEq, Prod.mk.injEq]
    exact and_congr_right fun hj => by rw [hj]

/-- A list decodes to an instruction exactly when its first bytes are the instruction's. -/
theorem decodeWith_listByte_eq_ok {bs : List Byte} {i : Instr} :
    decodeWith .illegalOpcode (listByte bs) = .ok i ↔ encode i <+: bs := by
  rw [List.prefix_iff_getElem?]
  constructor
  · exact fun h k hk => listByte_eq_ok.mp (bytes_of_decodeWith h k _ (List.getElem?_eq_getElem hk))
  · refine fun h => decodeWith_of_bytes _ fun k b hb => listByte_eq_ok.mpr ?_
    obtain ⟨hk, rfl⟩ := List.getElem?_eq_some_iff.mp hb
    exact h k hk

/-- Settles O3: the decoder answers an instruction exactly on the lists that begin with its encoding, and drops as
many bytes as the encoding has. -/
theorem decodeInvertsEncodeExactly : Obligations.DecodeInvertsEncodeExactly := by
  intro bs i rest
  rw [decode_eq_ok, decodeWith_listByte_eq_ok, ← length_encode]
  constructor
  · rintro ⟨hprefix, rfl⟩
    exact List.prefix_append_drop hprefix
  · rintro rfl
    exact ⟨List.prefix_append _ _, List.drop_left⟩

/-- Settles O2: one direction of O3. -/
theorem decodeOfEncodeIsIdentity : Obligations.DecodeOfEncodeIsIdentity :=
  fun i rest => (decodeInvertsEncodeExactly (encode i ++ rest) i rest).mpr rfl

/-- Settles O1: each word is its instruction's encoding, so this is O2 row by row. -/
theorem tableWordsDecode : Obligations.TableWordsDecode := fun a b rest =>
  have row (i : Instr) : decode (encode i ++ rest) = .ok (i, rest) := decodeOfEncodeIsIdentity i rest
  ⟨row (.ldi a b), row (.prn a), row .hlt, row (.push a), row (.pop a), row (.mul a b), row (.div a b),
    row (.add a b), row (.sub a b), row (.cmp a b), row (.jeq a), row (.jne a), row (.jmp a)⟩

end Sys2Proof

namespace Sys2Proof.Machine

/-! ### Illegal opcodes (R66) -/

theorem listByte_cases (bs : List Byte) (k : Nat) :
    (∃ b, listByte bs k = .ok b) ∨ listByte bs k = .error (.missingByte k) := by
  unfold listByte
  cases bs[k]? with
  | none => exact .inr rfl
  | some b => exact .inl ⟨b, rfl⟩

/-- Behind an opcode of the table the decoder can only miss an operand byte. -/
theorem decodeWith_ne_illegalOpcode {op : Byte} {rest : List Byte} {sh : Shape} (hs : shapeOf op = some sh) :
    decodeWith .illegalOpcode (listByte (op :: rest)) ≠ .error (.illegalOpcode op) := by
  rw [decodeWith_ok (op := op) _ rfl, hs]
  cases sh with
  | z i => nofun
  | r mk => obtain ⟨a, h1⟩ | h1 := listByte_cases (op :: rest) 1 <;> simp [h1, Except.bind]
  | rr mk | ri mk =>
    obtain ⟨a, h1⟩ | h1 := listByte_cases (op :: rest) 1
    · obtain ⟨b, h2⟩ | h2 := listByte_cases (op :: rest) 2 <;> simp [h1, h2, Except.bind]
    · simp [h1, Except.bind]

/-- A list is rejected as an illegal opcode exactly when its first byte is none of the 13. -/
theorem decode_eq_illegalOpcode {op : Byte} {rest : List Byte} :
    decode (op :: rest) = .error (.illegalOpcode op) ↔ op ∉ legalOpcodes := by
  have hdecode : decode (op :: rest) = .error (.illegalOpcode op) ↔
      decodeWith .illegalOpcode (listByte (op :: rest)) = .error (.illegalOpcode op) := by
    unfold decode
    cases decodeWith DecodeError.illegalOpcode (listByte (op :: rest)) <;> simp
  rw [hdecode, ← shapeOf_eq_none]
  cases hs : shapeOf op with
  | none => exact iff_of_true (by rw [decodeWith_ok (op := op) _ rfl, hs]) rfl
  | some sh => exact iff_of_false (decodeWith_ne_illegalOpcode hs) nofun

/-- Settles O4: the statement's 13 bytes are `legalOpcodes`, the bytes the opcode table has a row for. -/
theorem onlyThirteenOpcodesAreLegal : Obligations.OnlyThirteenOpcodesAreLegal :=
  ⟨fun _ _ => decode_eq_illegalOpcode, fun _ hr hpc hop => step_of_illegalOpcode hr hpc hop,
    fun _ => decode_eq_illegalOpcode.mpr (by decide)⟩

end Sys2Proof.Machine
end

section
/-! PROOFS. The pieces of assembler text (R69, log 12): numbers and registers read back, and what the reader's cuts and
trims do to words that the writer has put together. -/

namespace Sys2Proof.Assembler

/-! ### Digits and numbers -/

theorem toNat_digitChar {d : Nat} (h : d < 10) : (digitChar d).toNat = 48 + d := by
  rw [digitChar, Char.toNat_ofNat, if_pos (.inl (by omega))]

theorem digitValue_digitChar {base d : Nat} (h : d < base) (hd : d < 10) : digitValue base (digitChar d) = some d := by
  have hrange : 48 ≤ 48 + d ∧ 48 + d ≤ 57 := by omega
  simp [digitValue, toNat_digitChar hd, hrange, h]

theorem isDigit_digitChar {d : Nat} (h : d < 10) : (digitChar d).isDigit = true := by
  rw [Char.isDigit_iff_toNat, toNat_digitChar h]
  exact ⟨by simp, Nat.add_le_add_left (Nat.le_of_lt_succ h) 48⟩

theorem readDigits_digitChar {d : Nat} (h : d < 10) (acc : Nat) (cs : List Char) :
    readDigits 10 acc (digitChar d :: cs) = readDigits 10 (acc * 10 + d) cs := by
  rw [readDigits, digitValue_digitChar h h]

theorem isDigit_of_mem_showByte {b : Byte} {c : Char} (h : c ∈ showByte b) : c.isDigit = true := by
  have := b.isLt
  have hone : (digitChar (b.toNat % 10)).isDigit = true := isDigit_digitChar (by omega)
  have hten : (digitChar (b.toNat / 10 % 10)).isDigit = true := isDigit_digitChar (by omega)
  have hhundred : (digitChar (b.toNat / 100)).isDigit = true := isDigit_digitChar (by omega)
  simp only [showByte, List.mem_append, List.mem_ite_nil_right, List.mem_singleton] at h
  obtain (⟨-, rfl⟩ | ⟨-, rfl⟩) | rfl := h
  · exact hhundred
  · exact hten
  · exact hone

theorem showByte_ne_nil (b : Byte) : showByte b ≠ [] := by
  simp [showByte]

/-- The decimal digits of a byte have its value: three digits, two, or one. -/
theorem readDigits_showByte (b : Byte) : readDigits 10 0 (showByte b) = some b.toNat := by
  have := b.isLt
  have hone (acc : Nat) : readDigits 10 acc [digitChar (b.toNat % 10)] = some (acc * 10 + b.toNat % 10) :=
    readDigits_digitChar (by omega) acc []
  have hten := readDigits_digitChar (d := b.toNat / 10 % 10) (by omega)
  have hhundred := readDigits_digitChar (d := b.toNat / 100) (by omega)
  unfold showByte
  by_cases h100 : 100 ≤ b.toNat
  · simp only [h100, show 10 ≤ b.toNat by omega, if_true, List.cons_append, List.nil_append, hhundred, hten, hone,
      Option.some.injEq]
    omega
  · by_cases h10 : 10 ≤ b.toNat
    · simp only [h100, h10, if_true, if_false, List.cons_append, List.nil_append, hten, hone,
        Option.some.injEq]
      omega
    · simp only [h100, h10, if_false, List.nil_append, hone, Option.some.injEq]
      omega

theorem readNumber_showByte (b : Byte) : readNumber 10 (showByte b) = some b := by
  have hle : b.toNat ≤ 255 := by omega
  simp [readNumber, showByte_ne_nil, readDigits_showByte, hle]

/-- Digits alone are read in decimal: neither `x` nor `b` is a digit. -/
theorem readImm_of_digits {cs : List Char} (h : ∀ c ∈ cs, c.isDigit = true) : readImm cs = readNumber 10 cs := by
  unfold readImm
  split
  · exact absurd (h 'x' (by simp)) (by decide)
  · exact absurd (h 'b' (by simp)) (by decide)
  · rfl

@[simp] theorem readImm_showByte (b : Byte) : readImm (showByte b) = some b := by
  rw [readImm_of_digits fun _ => isDigit_of_mem_showByte, readNumber_showByte]

@[simp] theorem readReg_showReg (r : RegIdx) : readReg (showReg (regByte r)) = some (regByte r) := by
  have := r.isLt
  have hshow : showByte (regByte r) = [digitChar r.val] := by
    have hmod : r.val % 10 = r.val := by omega
    simp [showByte, -BitVec.toNat_ofNat, show ¬ 100 ≤ r.val by omega, show ¬ 10 ≤ r.val by omega, hmod]
  rw [showReg, hshow, readReg, digitValue_digitChar this (by omega), Option.map_some]

/-! ### Words: the texts without blanks and separators that the writer puts together -/

/-- A mnemonic or an operand as text. -/
structure IsWord (cs : List Char) : Prop where
  ne_nil : cs ≠ []
  alphanum : ∀ c ∈ cs, c.isAlphanum = true

theorem isWord_mnemonic (i : Instr) : IsWord i.mnemonic := by
  cases i <;> exact ⟨List.cons_ne_nil _ _, by simp [Instr.mnemonic]⟩

theorem isWord_showByte (b : Byte) : IsWord (showByte b) :=
  ⟨showByte_ne_nil b, fun c hc => by simp [Char.isAlphanum, isDigit_of_mem_showByte hc]⟩

theorem isWord_showReg (b : Byte) : IsWord (showReg b) where
  ne_nil := List.cons_ne_nil _ _
  alphanum := List.forall_mem_cons.mpr ⟨by decide, (isWord_showByte b).alphanum⟩

theorem isWord_of_mem_operandTexts {i : Instr} {x : List Char} (h : x ∈ operandTexts i) : IsWord x := by
  cases i with
  | hlt => cases h
  | prn a | push a | pop a | jeq a | jne a | jmp a =>
    rw [List.mem_singleton.mp h]
    exact isWord_showReg a
  | ldi a imm =>
    obtain rfl | rfl := List.mem_pair.mp h
    · exact isWord_showReg a
    · exact isWord_showByte imm
  | mul a b | div a b | add a b | sub a b | cmp a b =>
    obtain rfl | rfl := List.mem_pair.mp h
    · exact isWord_showReg a
    · exact isWord_showReg b

/-! ### Characters of a text -/

theorem isBlank_eq_false_of_alphanum {c : Char} (h : c.isAlphanum = true) : isBlank c = false := by
  by_contra hblank
  simp only [isBlank, Bool.or_eq_true, beq_iff_eq, Bool.not_eq_false] at hblank
  rcases hblank with (rfl | rfl) | rfl <;> simp at h

theorem showOperands_cons {x : List Char} {xs : List (List Char)} (h : xs ≠ []) :
    showOperands (x :: xs) = x ++ ',' :: showOperands xs := by
  cases xs with
  | nil => exact absurd rfl h
  | cons y ys => rfl

theorem alphanum_or_comma_of_mem_showOperands {xs : List (List Char)} (h : ∀ x ∈ xs, IsWord x) {c : Char}
    (hc : c ∈ showOperands xs) : c.isAlphanum = true ∨ c = ',' := by
  induction xs with
  | nil => cases hc
  | cons x xs ih =>
    obtain ⟨hx, hxs⟩ := List.forall_mem_cons.mp h
    by_cases hnil : xs = []
    · subst hnil
      exact .inl (hx.alphanum c hc)
    · rw [showOperands_cons hnil, List.mem_append, List.mem_cons] at hc
      obtain hc | rfl | hc := hc
      · exact .inl (hx.alphanum c hc)
      · exact .inr rfl
      · exact ih hxs hc

theorem showOperands_ne_nil {xs : List (List Char)} (h : ∀ x ∈ xs, IsWord x) (hne : xs ≠ []) :
    showOperands xs ≠ [] := by
  cases xs with
  | nil => exact absurd rfl hne
  | cons x xs =>
    have hx := (h x List.mem_cons_self).ne_nil
    by_cases hnil : xs = []
    · subst hnil
      exact hx
    · simp [showOperands_cons hnil]

/-! ### Cuts and trims -/

theorem cutAt_eq_splitOnP (p : Char → Bool) (cs : List Char) : cutAt p cs = cs.splitOnP p := by
  induction cs with
  | nil => rw [cutAt, List.splitOnP_nil]
  | cons c cs ih =>
    rw [cutAt, ih, List.splitOnP_cons_eq_if_modifyHead]
    cases h : cs.splitOnP p with
    | nil => exact absurd h (List.splitOnP_ne_nil p cs)
    | cons piece rest => rfl

/-- The operands are cut apart where the writer put its commas. -/
theorem cutAt_comma_showOperands {xs : List (List Char)} (h : ∀ x ∈ xs, IsWord x) (hne : xs ≠ []) :
    cutAt (· == ',') (showOperands xs) = xs := by
  rw [cutAt_eq_splitOnP]
  induction xs with
  | nil => exact absurd rfl hne
  | cons x xs ih =>
    obtain ⟨hx, hxs⟩ := List.forall_mem_cons.mp h
    have hcomma : ∀ c ∈ x, (c == ',') = false := fun c hc => by
      refine beq_eq_false_iff_ne.mpr ?_
      rintro rfl
      exact absurd (hx.alphanum _ hc) (by decide)
    by_cases hnil : xs = []
    · subst hnil
      exact List.splitOnP_eq_singleton hcomma
    · rw [showOperands_cons hnil, List.splitOnP_append_cons_of_forall_mem hcomma _ rfl, ih hxs hnil]

theorem trim_of_ends {cs : List Char} (hhead : ∀ c ∈ cs.head?, isBlank c = false)
    (hlast : ∀ c ∈ cs.getLast?, isBlank c = false) : trim cs = cs := by
  have keep {ds : List Char} (h : ∀ c ∈ ds.head?, isBlank c = false) : ds.dropWhile isBlank = ds := by
    cases ds with
    | nil => rfl
    | cons d ds => rw [List.dropWhile_cons_of_neg (by simp [h d rfl])]
  rw [trim, keep hhead, keep (by simpa using hlast), List.reverse_reverse]

theorem trim_of_no_blank {cs : List Char} (h : ∀ c ∈ cs, isBlank c = false) : trim cs = cs :=
  trim_of_ends (fun c hc => h c (List.mem_of_mem_head? hc)) fun c hc => h c (List.mem_of_mem_getLast? hc)

theorem IsWord.no_blank {cs : List Char} (h : IsWord cs) : ∀ c ∈ cs, isBlank c = false :=
  fun c hc => isBlank_eq_false_of_alphanum (h.alphanum c hc)

theorem IsWord.trim {cs : List Char} (h : IsWord cs) : trim cs = cs :=
  trim_of_no_blank h.no_blank

theorem no_blank_showOperands {xs : List (List Char)} (h : ∀ x ∈ xs, IsWord x) :
    ∀ c ∈ showOperands xs, isBlank c = false := by
  intro c hc
  obtain hword | rfl := alphanum_or_comma_of_mem_showOperands h hc
  · exact isBlank_eq_false_of_alphanum hword
  · decide

/-- A blank between two texts without blanks is no blank at an end. -/
theorem trim_append_space_append {cs ds : List Char} (hcs : ∀ c ∈ cs, isBlank c = false) (hcs' : cs ≠ [])
    (hds : ∀ c ∈ ds, isBlank c = false) (hds' : ds ≠ []) : trim (cs ++ ' ' :: ds) = cs ++ ' ' :: ds := by
  refine trim_of_ends (fun c hc => hcs c (List.mem_of_mem_head? ?_)) fun c hc =>
    hds c (List.mem_of_mem_getLast? ?_)
  · rwa [List.head?_append_of_ne_nil _ hcs'] at hc
  · rwa [← List.singleton_append, ← List.append_assoc, List.getLast?_append_of_ne_nil _ hds'] at hc

end Sys2Proof.Assembler
end

section
/-! PROOFS. The assembler reads back the text of an instruction and of a source (R69, R70). -/

namespace Sys2Proof.Assembler

/-! ### One instruction -/

theorem takeWhile_append_space {w : List Char} (h : IsWord w) (cs : List Char) :
    (w ++ ' ' :: cs).takeWhile (fun c => !isBlank c) = w := by
  rw [List.takeWhile_append_of_pos fun c hc => by simp [h.no_blank c hc],
    List.takeWhile_cons_of_neg (by decide), List.append_nil]

/-- A mnemonic alone is read as its shape without operands. -/
theorem readInstr_of_word {w : List Char} (h : IsWord w) :
    readInstr w = (shapeNamed w).bind fun sh => fillShape sh [] := by
  have hname : w.takeWhile (fun c => !isBlank c) = w :=
    List.takeWhile_eq_self_iff.mpr fun c hc => by simp [h.no_blank c hc]
  simp only [readInstr, h.trim, hname, List.drop_length, show trim [] = [] from rfl, if_true]
  cases shapeNamed w <;> rfl

/-- A mnemonic and operands behind a blank are read as its shape filled from the operands. -/
theorem readInstr_of_word_operands {w : List Char} {xs : List (List Char)} (hw : IsWord w)
    (hxs : ∀ x ∈ xs, IsWord x) (hne : xs ≠ []) :
    readInstr (w ++ ' ' :: showOperands xs) = (shapeNamed w).bind fun sh => fillShape sh xs := by
  have hops := showOperands_ne_nil hxs hne
  have hblank := no_blank_showOperands hxs
  have htext := trim_append_space_append hw.no_blank hw.ne_nil hblank hops
  have hrest : trim (' ' :: showOperands xs) = showOperands xs := trim_of_no_blank hblank
  have hcut : (cutAt (· == ',') (showOperands xs)).map trim = xs := by
    rw [cutAt_comma_showOperands hxs hne]
    exact (List.map_congr_left fun x hx => (hxs x hx).trim).trans (List.map_id xs)
  simp only [readInstr, htext, takeWhile_append_space hw, List.drop_left, hrest, hops, if_false, hcut]
  cases shapeNamed w <;> rfl

theorem showInstr_of_nil {i : Instr} (h : operandTexts i = []) : showInstr i = i.mnemonic := by
  rw [showInstr, h]

theorem showInstr_of_ne_nil {i : Instr} (h : operandTexts i ≠ []) :
    showInstr i = i.mnemonic ++ ' ' :: showOperands (operandTexts i) := by
  unfold showInstr
  split
  · next hnil => exact absurd hnil h
  · rfl

theorem readInstr_showInstr_eq_bind (i : Instr) :
    readInstr (showInstr i) = (shapeNamed i.mnemonic).bind fun sh => fillShape sh (operandTexts i) := by
  by_cases h : operandTexts i = []
  · rw [showInstr_of_nil h, h, readInstr_of_word (isWord_mnemonic i)]
  · rw [showInstr_of_ne_nil h]
    exact readInstr_of_word_operands (isWord_mnemonic i) (fun _ => isWord_of_mem_operandTexts) h

/-- R64: no two rows share a mnemonic. -/
theorem shapeNamed_mnemonic (i : Instr) : shapeNamed i.mnemonic = shapeOf i.opcode := by
  cases i <;> rfl

/-- The text of an instruction whose register bytes pass the check reads back as the instruction. -/
theorem readInstr_showInstr {i : Instr} (h : i.Checked) : readInstr (showInstr i) = some i := by
  rw [readInstr_showInstr_eq_bind, shapeNamed_mnemonic]
  cases h with
  | hlt => rfl
  | ldi | prn | push | pop | jeq | jne | jmp | mul | div | add | sub | cmp =>
    simp [shapeOf, Instr.opcode, operandTexts, fillShape]

/-! ### A source text -/

theorem trim_showInstr (i : Instr) : trim (showInstr i) = showInstr i := by
  have hw := isWord_mnemonic i
  by_cases h : operandTexts i = []
  · rw [showInstr_of_nil h, hw.trim]
  · have hxs : ∀ x ∈ operandTexts i, IsWord x := fun _ => isWord_of_mem_operandTexts
    rw [showInstr_of_ne_nil h]
    exact trim_append_space_append hw.no_blank hw.ne_nil (no_blank_showOperands hxs) (showOperands_ne_nil hxs h)

theorem showInstr_ne_nil (i : Instr) : showInstr i ≠ [] := by
  by_cases h : operandTexts i = []
  · rw [showInstr_of_nil h]
    exact (isWord_mnemonic i).ne_nil
  · simp [showInstr_of_ne_nil h]

/-- The text of an instruction holds no separator of R69 between instructions. -/
theorem not_separator_of_mem_showInstr {i : Instr} {c : Char} (h : c ∈ showInstr i) :
    (c == '\n' || c == ';') = false := by
  have hword {c : Char} (h : c.isAlphanum = true) : (c == '\n' || c == ';') = false := by
    by_contra hsep
    simp only [Bool.or_eq_true, beq_iff_eq, Bool.not_eq_false] at hsep
    rcases hsep with rfl | rfl <;> simp at h
  by_cases hnil : operandTexts i = []
  · rw [showInstr_of_nil hnil] at h
    exact hword ((isWord_mnemonic i).alphanum c h)
  · rw [showInstr_of_ne_nil hnil, List.mem_append, List.mem_cons] at h
    obtain h | rfl | h := h
    · exact hword ((isWord_mnemonic i).alphanum c h)
    · decide
    · obtain h | rfl := alphanum_or_comma_of_mem_showOperands (fun _ => isWord_of_mem_operandTexts) h
      · exact hword h
      · decide

theorem readPieces_map_showInstr {is : List Instr} (h : ∀ i ∈ is, i.Checked) :
    readPieces (is.map showInstr) = some is := by
  induction is with
  | nil => rfl
  | cons i is ih =>
    obtain ⟨hi, his⟩ := List.forall_mem_cons.mp h
    rw [List.map_cons, readPieces, trim_showInstr, if_neg (showInstr_ne_nil i), readInstr_showInstr hi, ih his]

/-- Two instructions with a separator between them assemble to their bytes in order. -/
theorem assemble_pair {i j : Instr} (hi : i.Checked) (hj : j.Checked) {sep : Char}
    (hsep : (sep == '\n' || sep == ';') = true) :
    assemble (showInstr i ++ sep :: showInstr j) = some (encode i ++ encode j) := by
  have hcut : cutAt (fun c => c == '\n' || c == ';') (showInstr i ++ sep :: showInstr j) = [i, j].map showInstr := by
    rw [cutAt_eq_splitOnP, List.splitOnP_append_cons_of_forall_mem (fun _ => not_separator_of_mem_showInstr) sep hsep,
      List.splitOnP_eq_singleton fun _ => not_separator_of_mem_showInstr]
    rfl
  rw [assemble, hcut, readPieces_map_showInstr (by simp [hi, hj])]
  simp

theorem checked_of_wellFormed {i : Instr} (h : i.wellFormed = true) : i.Checked :=
  Machine.checked_of_badRegByte_none (by simpa [Instr.badRegByte, Instr.wellFormed] using h)

/-- Settles O5: the text of an instruction is a mnemonic and operands that the reader cuts apart again, each operand
reads back, and no text holds a separator. -/
theorem assemblerReadsWhatItWrites : Obligations.AssemblerReadsWhatItWrites :=
  ⟨fun _ hi => readInstr_showInstr (checked_of_wellFormed hi), fun _ _ hi hj =>
    ⟨assemble_pair (checked_of_wellFormed hi) (checked_of_wellFormed hj) rfl,
      assemble_pair (checked_of_wellFormed hi) (checked_of_wellFormed hj) rfl⟩⟩

end Sys2Proof.Assembler
end

section
/-! PROOFS. Every instruction and every step answers a next state, and so does a run from a loaded image, which keeps
the invariant (R85, R125, R127). -/

namespace Sys2Proof.Machine

/-- Settles O19: every rule ends in the shared end of a step, which answers a commit or a fault entry. -/
theorem everyInstructionAnswersANextState : Obligations.EveryInstructionAnswersANextState := by
  intro i s
  obtain ⟨r, hr⟩ := exec_eq_finish i s
  rw [hr]
  exact finish_next s r

/-- A step stops the model in no state: it keeps the state, enters Faulted, or executes an instruction. -/
theorem step_next (s : State) : ∃ t, step s = .next t := by
  by_cases hr : s.runState = .running
  · cases hf : fetch s with
    | error r => exact ⟨_, step_of_fetch_error hr hf⟩
    | ok i =>
      rw [step_of_fetch hr hf]
      exact everyInstructionAnswersANextState i s
  · exact ⟨s, step_of_not_running hr⟩

/-- A property that every step keeps holds after a run of any length, and the run answers a state. -/
theorem core_run_induction {P : State → Prop} (hstep : ∀ s t, P s → step s = .next t → P t) {s : State} (hs : P s)
    (k : Nat) : ∃ t, Sys2Proof.core.run k s = .next t ∧ P t := by
  induction k generalizing s with
  | zero => exact ⟨s, rfl, hs⟩
  | succ k ih =>
    obtain ⟨t, ht⟩ := step_next s
    rw [core_run_of_step ht]
    exact ih (hstep s t hs ht)

/-- R123: a loaded machine has the invariant, which differs from that of `State.reset` in the memory and the limits. -/
theorem inv_of_boot {low high : Byte} {image : List Byte} {s : State} (h : State.boot low high image = some s) :
    s.Inv := by
  by_cases hfits : image.length ≤ Config.memSize ∧ low.toNat ≤ high.toNat
  · cases (boot_of_fits hfits).symm.trans h
    exact
      { memWf := Memory.writeBytes_wf rfl 0 image
        pcRange := invariantHoldsAtReset.pcRange
        limits := hfits.2
        noFault := invariantHoldsAtReset.noFault
        halted := fun hh => by cases hh
        faulted := fun hh => by cases hh }
  · cases (boot_of_not_fits hfits).symm.trans h

/-- Settles O11: the invariant holds of the loaded machine, and every step keeps it. -/
theorem everyRunFromBootKeepsTheInvariant : Obligations.EveryRunFromBootKeepsTheInvariant :=
  fun _ _ _ _ hboot => core_run_induction stepKeepsTheInvariant (inv_of_boot hboot)

end Sys2Proof.Machine
end

section
/-! PROOFS. Where a Running step leaves PC and STATE (R83), and the causes an instruction can raise (R79, R105). -/

namespace Sys2Proof.Machine

/-! ### A commit passes every check of R107 -/

/-- R107 item 5: a fetched instruction that commits has passed its own check. -/
theorem ownFault_none_of_commit {s : State} {i : Instr} {e : Effect} (h : fetch s = .ok i)
    (he : ruleEffect i s = .ok e) : s.ownFault = none := by
  have h0 := opcode_of_fetch h
  cases checked_of_ruleEffect_ok he with
  | div a b =>
    have h2 : s.codeByte 2 = regByte b := codeByte_of_fetch h rfl
    have hb : s.reg b ≠ 0#8 := fun hzero => by simp [hzero] at he
    simp [State.ownFault, h0, h2, Instr.opcode, hb]
  | push a =>
    have hsp : ¬ s.sp.toNat ≤ s.stackLow.toNat := fun hle => by simp [hle] at he
    simpa [State.ownFault, h0, Instr.opcode] using hsp
  | pop a =>
    have hsp : ¬ s.stackHigh.toNat ≤ s.sp.toNat := fun hle => by simp [hle] at he
    simpa [State.ownFault, h0, Instr.opcode] using hsp
  | _ => simp [State.ownFault, h0, Instr.opcode]

/-- A fetched instruction that commits has no fault in the order of R107. -/
theorem stepFault_none_of_commit {s : State} {i : Instr} {e : Effect} (h : fetch s = .ok i)
    (he : ruleEffect i s = .ok e) : s.stepFault = none := by
  rw [stepFault_of_fetch h, badCodeByte_of_fetch h]
  cases hb : i.badRegByte with
  | some b => cases (ruleEffect_bad s hb).symm.trans he
  | none => exact ownFault_none_of_commit h he

/-! ### The next PC over the bytes at PC (R83) -/

/-- R32, R102: bit E of FL is set in one of the four states. -/
theorem e_eq_beq_equal (f : FlagState) : f.e = (f == .equal) := by
  cases f <;> rfl

theorem nextPc_of_hlt {s : State} (h : s.codeByte 0 = 0x01#8) : s.nextPc = s.pc.toNat :=
  if_pos h

/-- R83: the address after a fetched instruction that is neither a HLT nor a taken jump. -/
theorem nextPc_of_sequential {s : State} {i : Instr} (h : fetch s = .ok i) (hi : s.codeByte 0 ≠ 0x01#8)
    (ht : s.takesJump = false) : s.nextPc = (s.pcPlus i.length).toNat := by
  have hend := pc_add_operands_of_fetch h
  have hlen : i.length = 1 + i.operandBytes.length := rfl
  rw [State.nextPc, if_neg hi, if_neg (by simp [ht]), toNat_pcPlus s (by omega), opcode_of_fetch h,
    ← length_operandBytes]
  omega

/-- R83: the address after a jump, or the value of the register it names where it is taken. -/
theorem nextPc_of_jump {s : State} {i : Instr} {a : RegIdx} (h : fetch s = .ok i) (hi : s.codeByte 0 ≠ 0x01#8)
    (h1 : s.codeByte 1 = regByte a) :
    s.nextPc = (if s.takesJump then zext9 (s.reg a) else s.pcPlus i.length).toNat := by
  cases ht : s.takesJump with
  | false => exact nextPc_of_sequential h hi ht
  | true => rw [State.nextPc, if_neg hi, if_pos ht, h1, regOfByte_regByte, if_pos rfl, toNat_zext9]

/-- R83: a rule that is neither a HLT's nor a jump's goes on to the address after the instruction. -/
theorem nextPc_of_not_jump {s : State} {i : Instr} {e : Effect} (hj : Laws.OpcodeFields.isJump i = false)
    (hi : i ≠ .hlt) (he : ruleEffect i s = .ok e) : e.nextPc = s.pcPlus i.length := by
  cases checked_of_ruleEffect_ok he with
  | hlt => exact absurd rfl hi
  | jmp a | jeq a | jne a => cases hj
  | ldi a imm | prn a | mul a b | add a b | sub a b | cmp a b =>
    simp only [ruleEffect_ldi, ruleEffect_prn, ruleEffect_mul, ruleEffect_add, ruleEffect_sub, ruleEffect_cmp,
      Except.ok.injEq] at he
    subst he
    rfl
  | push a | pop a | div a b =>
    simp only [ruleEffect_push, ruleEffect_pop, ruleEffect_div] at he
    split at he
    · cases he
    · cases he
      rfl

/-- R64: 0x01 is the opcode of HLT alone. -/
theorem opcode_ne_of_ne_hlt {i : Instr} (hi : i ≠ .hlt) : i.opcode ≠ 0x01#8 := by
  cases i with
  | hlt => exact absurd rfl hi
  | _ => simp [Instr.opcode]

/-- The rule's next PC is that of R83 over the bytes at PC. -/
theorem toNat_nextPc_of_commit {s : State} {i : Instr} {e : Effect} (h : fetch s = .ok i)
    (he : ruleEffect i s = .ok e) : e.nextPc.toNat = s.nextPc := by
  have h0 := opcode_of_fetch h
  cases checked_of_ruleEffect_ok he with
  | hlt =>
    cases he
    exact (nextPc_of_hlt h0).symm
  | jmp a =>
    cases (ruleEffect_jmp a s).symm.trans he
    have ht : s.takesJump = true := by simp [State.takesJump, h0, Instr.opcode]
    rw [nextPc_of_jump h (by simp [h0, Instr.opcode]) (codeByte_of_fetch h rfl), ht, if_pos rfl]
  | jeq a =>
    cases (ruleEffect_jeq a s).symm.trans he
    have ht : s.takesJump = s.fl.e := by simp [State.takesJump, h0, Instr.opcode, e_eq_beq_equal]
    rw [nextPc_of_jump h (by simp [h0, Instr.opcode]) (codeByte_of_fetch h rfl), ht]
    rfl
  | jne a =>
    cases (ruleEffect_jne a s).symm.trans he
    have ht : s.takesJump = !s.fl.e := by simp [State.takesJump, h0, Instr.opcode, e_eq_beq_equal, bne]
    rw [nextPc_of_jump h (by simp [h0, Instr.opcode]) (codeByte_of_fetch h rfl), ht]
    rfl
  | _ =>
    have ht : s.takesJump = false := by simp [State.takesJump, h0, Instr.opcode]
    have hnext := nextPc_of_not_jump rfl (by simp) he
    rw [hnext, nextPc_of_sequential h (by simp [h0, Instr.opcode]) ht]

/-- Settles O20: a fetch that fails and a rule that raises are faults of the order of R107, and a rule that answers an
effect has passed every check, takes the PC of R83, and leaves STATE Running but for a HLT. -/
theorem runningStepTakesTheNextPc : Obligations.RunningStepTakesTheNextPc := by
  intro s hr
  obtain ⟨t, h⟩ := step_next s
  refine ⟨t, h, ?_⟩
  obtain ⟨hn, -⟩ | ⟨-, r, hf, rfl⟩ | ⟨-, i, hf, hexec⟩ := step_cases h
  · exact absurd hr hn
  · exact .inr (.inr ⟨rfl, by simp [stepFault_of_fetch_error hf], rfl⟩)
  · obtain ⟨e, he, rfl⟩ | ⟨f, hraise, rfl⟩ := exec_rule_cases hexec
    · have hnone := stepFault_none_of_commit hf he
      have hpc := toNat_nextPc_of_commit hf he
      by_cases hi : i = .hlt
      · subst hi
        cases he
        exact .inr (.inl ⟨rfl, hnone, opcode_of_fetch hf, rfl⟩)
      · obtain ⟨-, -, -, hrun⟩ := commit_control he
        have h0 : s.codeByte 0 ≠ 0x01#8 := opcode_of_fetch hf ▸ opcode_ne_of_ne_hlt hi
        exact .inl ⟨(hrun hi).trans hr, hnone, h0, hpc, hpc ▸ nextPc_le hf he⟩
    · exact .inr (.inr ⟨rfl, by simp [stepFault_of_ruleEffect_error hf hraise], rfl⟩)

/-! ### Which causes an instruction can raise (R79, R105) -/

/-- Past the register check, an instruction raises its own fault or none: that of DIV, PUSH or POP. -/
theorem cause_of_checked {i : Instr} {s : State} {f : Raise} (hc : i.Checked) (hf : ruleEffect i s = .error f) :
    f.cause ∈ [.divisionByZero, .stackOverflow, .stackUnderflow] := by
  cases hc with
  | div a b | push a | pop a =>
    simp only [ruleEffect_div, ruleEffect_push, ruleEffect_pop] at hf
    split at hf
    · cases hf
      simp [Raise.cause]
    · cases hf
  | _ => simp at hf

/-- A Running core enters Faulted by no commit. -/
theorem runState_commit_ne_faulted {i : Instr} {s : State} {e : Effect} (hr : s.runState = .running)
    (he : ruleEffect i s = .ok e) : (commit e s).runState ≠ .faulted := by
  by_cases hi : i = .hlt
  · subst hi
    cases he
    nofun
  · obtain ⟨-, -, -, hrun⟩ := commit_control he
    simp [hrun hi, hr]

/-- An executed instruction of a Running core that ends in Faulted does so by its rule's raise. -/
theorem raise_of_exec_faulted {i : Instr} {s t : State} (hr : s.runState = .running) (h : exec i s = .next t)
    (ht : t.runState = .faulted) : ∃ f, ruleEffect i s = .error f ∧ t.faultCause = f.cause := by
  obtain ⟨e, he, rfl⟩ | ⟨f, hf, rfl⟩ := exec_rule_cases h
  · exact absurd ht (runState_commit_ne_faulted hr he)
  · exact ⟨f, hf, rfl⟩

/-- R58, R78: the exceptions line on an operand byte at address 256, of every instruction. -/
theorem faultsPastEnd (i : Instr) : FaultsPastEnd i :=
  fun _ hr hpc hop hend => step_of_fetch_error hr (fetch_operand_past_end hpc hop hend)

/-- R79: the exceptions line on a register byte above 7, of every instruction. -/
theorem raisesOnBadRegister (i : Instr) : RaisesOnBadRegister i := by
  intro s b hb
  rw [exec_eq_finish_ruleEffect, ruleEffect_bad s hb]
  rfl

/-- An instruction of a Running core whose register bytes are legal ends in no InvalidRegister. -/
theorem exec_ne_invalidRegister {i : Instr} {s t : State} (hr : s.runState = .running) (hi : i.badRegByte = none)
    (h : exec i s = .next t) : ¬ (t.runState = .faulted ∧ t.faultCause = .invalidRegister) := by
  rintro ⟨ht, hcause⟩
  obtain ⟨f, hf, hfc⟩ := raise_of_exec_faulted hr h ht
  have hmem := cause_of_checked (checked_of_badRegByte_none hi) hf
  simp [← hfc, hcause] at hmem

/-- Settles O18: the rule raises on the first bad byte before anything else, and past the check it raises only its own
fault. -/
theorem registerBytesAreCheckedInOrder : Obligations.RegisterBytesAreCheckedInOrder := by
  refine ⟨raisesOnBadRegister, fun i s t hr hi h => exec_ne_invalidRegister hr hi h, fun ra rb i hi => ?_,
    fun ra imm i hi => ?_, rfl, faultsPastEnd⟩
  · have hbytes : i.regBytes = [ra, rb] := by
      simp only [List.mem_cons, List.not_mem_nil, or_false] at hi
      rcases hi with rfl | rfl | rfl | rfl | rfl <;> rfl
    exact badRegByte_of_two hbytes
  · have hbytes : i.regBytes = [ra] := by
      simp only [List.mem_cons, List.not_mem_nil, or_false] at hi
      rcases hi with rfl | rfl | rfl | rfl | rfl | rfl | rfl <;> rfl
    exact badRegByte_of_one hbytes

/-! ### The ALU (R81) -/

theorem alu_div_zero (a : Byte) : alu .div a 0x00#8 = .divisionByZero := rfl

theorem alu_div_ne_zero (a : Byte) {b : Byte} (hb : b ≠ 0x00#8) : alu .div a b = .result (a / b) :=
  if_neg hb

/-- R81: of the six selectors only the one outside the five is answered as unsupported. -/
theorem alu_eq_unsupportedOperation (sel : AluSelector) (a b : Byte) :
    alu sel a b = .unsupportedOperation ↔ sel = .other := by
  cases sel with
  | div =>
    by_cases hb : b = 0x00#8
    · subst hb
      simp [alu_div_zero]
    · simp [alu_div_ne_zero a hb]
  | _ => simp [alu]

/-- R76 to R78: the two causes of a failed fetch. -/
theorem cause_of_fetch_error {s : State} {r : Raise} (h : fetch s = .error r) :
    r.cause ∈ [.addressOutOfRange, .illegalOpcode] := by
  obtain ⟨-, rfl⟩ | ⟨-, -, rfl⟩ | ⟨-, -, -, rfl⟩ := fetch_error_cases h <;> simp [Raise.cause]

/-- R79, R105: no rule raises UnsupportedOperation. -/
theorem cause_ne_unsupportedOperation {i : Instr} {s : State} {f : Raise} (hf : ruleEffect i s = .error f) :
    f.cause ≠ .unsupportedOperation := by
  intro hcause
  obtain ⟨b, hb⟩ | hc := bad_or_checked i
  · cases (ruleEffect_bad s hb).symm.trans hf
    cases hcause
  · simpa [hcause] using cause_of_checked hc hf

/-- Settles O31: the ALU answers by cases on the selector, and neither a fetch nor a rule raises
UnsupportedOperation. -/
theorem aluAnswersByItsSelector : Obligations.AluAnswersByItsSelector := by
  refine ⟨fun a b => ⟨⟨_, rfl⟩, ⟨_, rfl⟩, ⟨_, rfl⟩, ⟨_, rfl⟩, ?_, fun hb => ⟨_, alu_div_ne_zero a hb⟩⟩,
    alu_eq_unsupportedOperation, ?_⟩
  · rintro rfl
    exact alu_div_zero a
  · rintro s t hr h ⟨ht, hcause⟩
    obtain ⟨hn, -⟩ | ⟨-, r, hf, rfl⟩ | ⟨-, i, -, hexec⟩ := step_cases h
    · exact hn hr
    · rw [takeFault_faultCause] at hcause
      simpa [hcause] using cause_of_fetch_error hf
    · obtain ⟨f, hf, hfc⟩ := raise_of_exec_faulted hr hexec ht
      exact cause_ne_unsupportedOperation hf (hfc.symm.trans hcause)

end Sys2Proof.Machine
end

section
/-! PROOFS. The fetch unit is the list decoder over the bytes from PC to address 255 (R75 to R78, log 13), and what the
next step does with bytes that stand at PC. -/

namespace Sys2Proof

/-- The decoder carries the errors of its source along, and only asks for bytes 0 to 2. -/
theorem decodeWith_mapError {ε ε' : Type} (g : ε → ε') {illegal : Byte → ε} {illegal' : Byte → ε'}
    {byteAt : Nat → Except ε Byte} {byteAt' : Nat → Except ε' Byte} (hillegal : ∀ op, illegal' op = g (illegal op))
    (hbyte : ∀ k, k ≤ 2 → byteAt' k = (byteAt k).mapError g) :
    decodeWith illegal' byteAt' = (decodeWith illegal byteAt).mapError g := by
  have hbyte0 := hbyte 0 (by omega)
  cases h0 : byteAt 0 with
  | error e =>
    rw [h0] at hbyte0
    rw [decodeWith_error illegal h0, decodeWith_error illegal' hbyte0]
    rfl
  | ok op =>
    rw [h0] at hbyte0
    rw [decodeWith_ok illegal h0, decodeWith_ok illegal' hbyte0, hbyte 1 (by omega), hbyte 2 (by omega)]
    cases shapeOf op with
    | none => exact congrArg Except.error (hillegal op)
    | some sh =>
      cases sh with
      | z i => rfl
      | r mk => cases byteAt 1 <;> rfl
      | rr mk | ri mk =>
        cases byteAt 1 with
        | error e => rfl
        | ok a => cases byteAt 2 <;> rfl

theorem decode_eq_error {bs : List Byte} {e : DecodeError} :
    decode bs = .error e ↔ decodeWith .illegalOpcode (listByte bs) = .error e := by
  unfold decode
  cases decodeWith DecodeError.illegalOpcode (listByte bs) <;> simp

end Sys2Proof

namespace Sys2Proof.Machine

/-- The fault of a step for each way a list of bytes is no instruction (R66, R76, R78). -/
def State.raiseOf (s : State) : DecodeError → Raise
  | .illegalOpcode op => .illegalOpcode op
  | .missingByte k => .addressOutOfRange (s.pcPlus k)

/-- Byte `k` at PC is byte `k` of the list, or an address above 255 where the list has ended. -/
theorem fetchByte_eq_listByte {s : State} {k : Nat} (h : s.pc.toNat + k < 512) :
    fetchByte s k = (listByte s.codeBytes k).mapError s.raiseOf := by
  by_cases hk : s.pc.toNat + k ≤ 255
  · have hget : s.codeBytes[k]? = some (s.codeByte k) := Memory.getElem?_bytesFrom _ _ (by omega)
    rw [fetchByte_in s hk, listByte_eq_ok.mpr hget]
    rfl
  · have hget : s.codeBytes[k]? = none := by
      rw [List.getElem?_eq_none_iff, State.codeBytes, Memory.length_bytesFrom]
      omega
    rw [fetchByte_out s (by omega) h, listByte, hget]
    rfl

/-- R75 to R78: a fetch is the list decoder on the bytes from PC to address 255. -/
theorem fetch_eq_decodeWith (s : State) :
    fetch s = (decodeWith .illegalOpcode (listByte s.codeBytes)).mapError s.raiseOf := by
  by_cases hpc : s.pc.toNat ≤ 255
  · exact decodeWith_mapError _ (fun _ => rfl) fun k hk => fetchByte_eq_listByte (by omega)
  · have h0 := fetchByte_eq_listByte (s := s) (k := 0) s.pc.isLt
    have hlist : listByte s.codeBytes 0 = .error (.missingByte 0) := by
      have hnil : s.codeBytes = [] := by rw [State.codeBytes, show 256 - s.pc.toNat = 0 by omega]; rfl
      rw [hnil]
      rfl
    rw [hlist] at h0
    rw [fetch, decodeWith_error _ h0, decodeWith_error _ hlist]
    rfl

/-- A fetch fails with the fault of the list decoder's error. -/
theorem fetch_of_decode_error {s : State} {e : DecodeError} (h : decode s.codeBytes = .error e) :
    fetch s = .error (s.raiseOf e) := by
  rw [fetch_eq_decodeWith, decode_eq_error.mp h]
  rfl

theorem fetch_of_decode_ok {s : State} {i : Instr} {rest : List Byte} (h : decode s.codeBytes = .ok (i, rest)) :
    fetch s = .ok i := by
  obtain ⟨hi, -⟩ := decode_eq_ok.mp h
  rw [fetch_eq_decodeWith, hi]
  rfl

/-- Settles O15: the step is `exec` or the fault entry on what the fetch answers, and the fetch is the list decoder. -/
theorem stepRunsTheDecodedInstruction : Obligations.StepRunsTheDecodedInstruction :=
  fun _ hr => ⟨fun _ _ h => step_of_fetch hr (fetch_of_decode_ok h),
    fun _ h => step_of_fetch_error hr (fetch_of_decode_error h),
    fun _ h => step_of_fetch_error hr (fetch_of_decode_error h)⟩

/-- Settles O16: one case of the fetch for each clause. -/
theorem fetchReadsOpcodeThenOperands : Obligations.FetchReadsOpcodeThenOperands := by
  refine fun s hr => ⟨fun hpc => ?_, fun i hbytes => step_of_fetch hr (fetch_of_bytes hbytes),
    fun i => faultsPastEnd i s hr, step_of_illegalOpcode hr⟩
  have hfetch : fetch s = .error (.addressOutOfRange 256#9) := hpc ▸ fetch_past_end s (by rw [hpc]; decide)
  exact step_of_fetch_error hr hfetch

/-! ### A word placed at PC (log 14) -/

theorem length_tableBytes (nbits w : Nat) : (tableBytes nbits w).length = 3 := rfl

/-- The bytes from PC begin with the placed ones, where all three fit. -/
theorem tableBytes_prefix_codeBytes {s : State} (hm : s.mem.wf = true) (hpc : s.pc.toNat ≤ 253) (nbits w : Nat) :
    tableBytes nbits w <+: (s.withFetchWord nbits w).codeBytes := by
  rw [List.prefix_iff_getElem?]
  intro k hk
  have hfits : s.pc.toNat + (tableBytes nbits w).length ≤ Config.memSize := by
    rw [length_tableBytes, Config.memSize]
    omega
  have hin : k < 256 - s.pc.toNat := by
    rw [length_tableBytes] at hk
    omega
  calc (s.withFetchWord nbits w).codeBytes[k]?
      = some ((s.mem.writeBytes s.pc.toNat (tableBytes nbits w)).read (s.pc.toNat + k)) :=
        Memory.getElem?_bytesFrom _ _ hin
    _ = some (tableBytes nbits w)[k] := by
        rw [Memory.read_writeBytes hm hfits, List.getD_eq_getElem _ _ hk]

/-- What a table word decodes to is encoded at the head of its bytes. -/
theorem encode_prefix_tableBytes {nbits w : Nat} {i : Instr} (h : decodeTableWord nbits w = some i) :
    encode i <+: tableBytes nbits w := by
  unfold decodeTableWord at h
  split at h
  · next j rest hd =>
    cases h
    exact decodeWith_listByte_eq_ok.mp (decode_eq_ok.mp hd).1
  · cases h

/-- Settles O17: the encoding stands at the head of the bytes at PC, so the step decodes it (O15). -/
theorem placedWordIsTheNextInstruction : Obligations.PlacedWordIsTheNextInstruction := by
  intro s nbits w i hm hpc h
  obtain ⟨rest, hrest⟩ := (encode_prefix_tableBytes h).trans (tableBytes_prefix_codeBytes hm hpc nbits w)
  have hdecode := (decodeInvertsEncodeExactly _ i rest).mpr hrest.symm
  obtain ⟨hexec, -⟩ := stepRunsTheDecodedInstruction (s.withFetchWord nbits w) rfl
  exact hexec i rest hdecode

end Sys2Proof.Machine
end

section
/-! PROOFS. LDI and PRN (R86, R87): the rule on a legal register byte, committed. -/

namespace Sys2Proof.Machine

/-- R82: an instruction whose rule raises nothing ends in its commit. -/
theorem exec_of_ruleEffect_ok {i : Instr} {s : State} {e : Effect} (h : ruleEffect i s = .ok e) :
    exec i s = .next (commit e s) := by
  rw [exec_eq_finish_ruleEffect, h, finish_ok]

/-- Settles O23: on a legal Ra the rule's one write is that of the immediate to Ra; the exceptions are those of every
instruction. -/
theorem ldiWritesItsImmediate : Obligations.LdiWritesItsImmediate :=
  ⟨fun _ _ => rfl, fun s a imm => exec_of_ruleEffect_ok (ruleEffect_ldi a s imm),
    fun _ _ => ⟨raisesOnBadRegister _, faultsPastEnd _⟩⟩

/-- Settles O24: on a legal Ra the rule's one write is the emission of Ra's value; the exceptions are those of every
instruction, and a fault entry leaves the output log as it was. -/
theorem prnEmitsTheRegister : Obligations.PrnEmitsTheRegister :=
  ⟨fun _ => rfl, fun s a => exec_of_ruleEffect_ok (ruleEffect_prn a s),
    fun _ => ⟨raisesOnBadRegister _, faultsPastEnd _⟩⟩

end Sys2Proof.Machine
end

section
/-! PROOFS. The five ALU instructions (R91 to R95): the rule on two legal register bytes, committed or entered as a
fault, with the byte or flag it writes read as arithmetic on the unsigned register values (R89). -/

namespace Sys2Proof.Machine

/-- R90: a rule whose one write is a result to Ra writes Ra, advances PC by 3, and changes nothing else. -/
theorem exec_of_result {i : Instr} {s : State} {a : RegIdx} {v w : Byte}
    (h : ruleEffect i s = .ok ⟨[.reg a v], s.pcPlus 3⟩) (hv : v = w) :
    exec i s = .next { s with regs := s.regs.set a w, pc := s.pc + 3#9 } :=
  hv ▸ exec_of_ruleEffect_ok h

/-- R109: an instruction whose rule raises ends in the fault entry R109 describes. -/
theorem exec_of_ruleEffect_error {i : Instr} {s : State} {f : Raise} (h : ruleEffect i s = .error f) :
    exec i s = .next (s.faultedWith f.cause f.info) := by
  rw [exec_eq_finish_ruleEffect, h, finish_error]
  rfl

/-- R89, R92: the difference of two bytes is the exact one modulo 256. -/
theorem sub_eq_ofInt (x y : Byte) : x - y = BitVec.ofInt 8 (((x.toNat : Int) - (y.toNat : Int)) % 256) := by
  have hx := x.isLt
  have hy := y.isLt
  apply BitVec.eq_of_toNat_eq
  rw [BitVec.toNat_sub, BitVec.toNat_ofInt]
  omega

/-- R95: the bit CMP sets, by the unsigned values. -/
theorem bits_compareFlags_eq (x y : Byte) : (compareFlags x y).bits =
    if x.toNat = y.toNat then 0b001#3 else if x.toNat < y.toNat then 0b100#3 else 0b010#3 := by
  simp only [compareFlags, ← BitVec.toNat_inj]
  split
  · rfl
  · split <;> rfl

/-- Settles O26: on legal register bytes the rule's one write is the sum of two bytes, whose value is the sum of their
values modulo 256. -/
theorem addWritesTheSumModulo256 : Obligations.AddWritesTheSumModulo256 :=
  ⟨fun _ _ => rfl,
    fun s a b => exec_of_result (ruleEffect_add a b s) (BitVec.toNat_eq_nat.mp (BitVec.toNat_add _ _)).2,
    fun _ _ => ⟨raisesOnBadRegister _, faultsPastEnd _⟩⟩

/-- Settles O27: on legal register bytes the rule's one write is the difference of two bytes, which is that of their
values modulo 256. -/
theorem subWritesTheDifferenceModulo256 : Obligations.SubWritesTheDifferenceModulo256 :=
  ⟨fun _ _ => rfl, fun s a b => exec_of_result (ruleEffect_sub a b s) (sub_eq_ofInt _ _),
    fun _ _ => ⟨raisesOnBadRegister _, faultsPastEnd _⟩⟩

/-- Settles O28: on legal register bytes the rule's one write is the product of two bytes, whose value is the product
of their values modulo 256. -/
theorem mulWritesTheProductModulo256 : Obligations.MulWritesTheProductModulo256 :=
  ⟨fun _ _ => rfl,
    fun s a b => exec_of_result (ruleEffect_mul a b s) (BitVec.toNat_eq_nat.mp (BitVec.toNat_mul _ _)).2,
    fun _ _ => ⟨raisesOnBadRegister _, faultsPastEnd _⟩⟩

/-- Settles O29: on legal register bytes the rule's check of the divisor decides between the quotient and the raise
with Rb. -/
theorem divWritesTheFloorOrFaultsOnZero : Obligations.DivWritesTheFloorOrFaultsOnZero := by
  refine ⟨fun _ _ => rfl, fun s a b hb => ?_, fun s a b hb => ?_,
    fun _ _ => ⟨raisesOnBadRegister _, faultsPastEnd _⟩⟩
  · have hrule := (ruleEffect_div a b s).trans (if_neg hb)
    exact exec_of_result hrule (BitVec.toNat_eq_nat.mp BitVec.toNat_udiv).2
  · exact exec_of_ruleEffect_error ((ruleEffect_div a b s).trans (if_pos hb))

/-- Settles O30: on legal register bytes the rule's one write is the comparison's flag to FL. -/
theorem cmpSetsOneFlagUnsigned : Obligations.CmpSetsOneFlagUnsigned :=
  ⟨fun _ _ => rfl,
    fun s a b => ⟨_, exec_of_ruleEffect_ok (ruleEffect_cmp a b s), bits_compareFlags_eq _ _⟩,
    fun _ _ => ⟨raisesOnBadRegister _, faultsPastEnd _⟩⟩

end Sys2Proof.Machine
end

section
/-! PROOFS. The stack (R96 to R99): what a PUSH and a POP that pass their bounds test leave, where SP goes, and a POP of
the byte a PUSH has just stored. -/

namespace Sys2Proof.Machine

/-! ### SP one lower and one higher (R97) -/

/-- Above the low limit SP is not 0, so the address a PUSH stores to, its new SP, does not wrap. -/
theorem toNat_pushAddr {s : State} (h : s.stackLow.toNat < s.sp.toNat) :
    (pushAddr s).toNat = s.sp.toNat - 1 :=
  BitVec.toNat_sub_of_le (show 1 ≤ s.sp.toNat by omega)

/-- Below the high limit SP is not 255, so the new SP of a POP does not wrap. -/
theorem toNat_sp_add_one {s : State} (h : s.sp.toNat < s.stackHigh.toNat) :
    (s.sp + 1#8).toNat = s.sp.toNat + 1 := by
  have := s.stackHigh.isLt
  exact BitVec.toNat_add_of_lt (show s.sp.toNat + 1 < 2 ^ 8 by omega)

/-! ### What a PUSH leaves (R98) -/

section
variable (s : State) (a : RegIdx)

@[simp] theorem State.pushed_sp : (s.pushed a).sp = pushAddr s := State.reg_setReg_self ..

theorem State.pushed_reg_ne {r : RegIdx} (h : r ≠ 7) : (s.pushed a).reg r = s.reg r :=
  State.reg_setReg_ne _ h.symm _

theorem State.pushed_mem : (s.pushed a).mem = s.mem.write (pushAddr s).toNat (s.reg a) := rfl

theorem State.pushed_eq (h : s.stackLow.toNat < s.sp.toNat) :
    s.pushed a = { s with
      mem := s.mem.write (s.sp.toNat - 1) s.regs[a],
      regs := s.regs.set 7 (BitVec.ofNat 8 (s.sp.toNat - 1)), pc := s.pc + 2#9 } := by
  rw [← toNat_pushAddr h, BitVec.ofNat_toNat, BitVec.setWidth_eq]
  rfl

end

theorem exec_push_above_limit {s : State} (a : RegIdx) (h : s.stackLow.toNat < s.sp.toNat) :
    exec (.push (regByte a)) s = .next (s.pushed a) :=
  exec_of_ruleEffect_ok ((ruleEffect_push a s).trans (if_neg (Nat.not_le.mpr h)))

theorem exec_push_at_limit {s : State} (a : RegIdx) (h : s.sp.toNat ≤ s.stackLow.toNat) :
    exec (.push (regByte a)) s = .next (s.faultedWith .stackOverflow (zext9 s.sp)) :=
  exec_of_ruleEffect_error ((ruleEffect_push a s).trans (if_pos h))

/-- Settles O34: SP's bounds test decides between the store at SP - 1, which reads back in canonical memory, and the
raise; the other exceptions are those of every instruction. -/
theorem pushStoresBelowSp : Obligations.PushStoresBelowSp :=
  ⟨fun _ => rfl,
    fun s a h => ⟨(exec_push_above_limit a h).trans (congrArg _ (s.pushed_eq a h)),
      fun hm => Memory.read_write_self hm _ _⟩,
    fun _ a h => exec_push_at_limit a h,
    fun _ => ⟨raisesOnBadRegister _, faultsPastEnd _⟩⟩

/-! ### What a POP leaves (R99) -/

/-- What a POP that passes its checks leaves. -/
def State.popped (s : State) (a : RegIdx) : State :=
  commit ⟨[.reg Config.spIndex (s.sp + 1#8), .reg a (s.mem.read s.sp.toNat)], s.pcPlus 2⟩ s

section
variable (s : State) (a : RegIdx)

/-- R130: the popped byte is written last, so it is what Ra holds for R7 too. -/
@[simp] theorem State.popped_reg_self : (s.popped a).reg a = s.mem.read s.sp.toNat := State.reg_setReg_self ..

theorem State.popped_reg_ne {r : RegIdx} (ha : r ≠ a) (h7 : r ≠ 7) : (s.popped a).reg r = s.reg r :=
  (State.reg_setReg_ne _ ha.symm _).trans (State.reg_setReg_ne _ h7.symm _)

theorem State.popped_sp {r : RegIdx} (h : r ≠ 7) : (s.popped r).sp = s.sp + 1#8 :=
  (State.reg_setReg_ne _ h _).trans (State.reg_setReg_self ..)

theorem State.popped_eq :
    s.popped a = { s with
      regs := (s.regs.set 7 (BitVec.ofNat 8 (s.sp.toNat + 1))).set a (s.mem.read s.sp.toNat), pc := s.pc + 2#9 } := by
  rw [BitVec.ofNat_add, BitVec.ofNat_toNat, BitVec.setWidth_eq]
  rfl

end

theorem exec_pop_below_limit {s : State} (a : RegIdx) (h : s.sp.toNat < s.stackHigh.toNat) :
    exec (.pop (regByte a)) s = .next (s.popped a) :=
  exec_of_ruleEffect_ok ((ruleEffect_pop a s).trans (if_neg (Nat.not_le.mpr h)))

theorem exec_pop_at_limit {s : State} (a : RegIdx) (h : s.stackHigh.toNat ≤ s.sp.toNat) :
    exec (.pop (regByte a)) s = .next (s.faultedWith .stackUnderflow (zext9 s.sp)) :=
  exec_of_ruleEffect_error ((ruleEffect_pop a s).trans (if_pos h))

/-- Settles O35: SP's bounds test decides between the load, SP + 1 being written before the byte, and the raise; the
other exceptions are those of every instruction. -/
theorem popLoadsFromSp : Obligations.PopLoadsFromSp :=
  ⟨fun _ => rfl,
    fun s a h => (exec_pop_below_limit a h).trans (congrArg _ (s.popped_eq a)),
    fun _ a h => exec_pop_at_limit a h,
    fun _ => ⟨raisesOnBadRegister _, faultsPastEnd _⟩⟩

/-! ### The bounds tests (R97) -/

/-- R97: the overflow test keeps the new SP of a PUSH at or above the low limit. -/
theorem push_keeps_sp_in_range (s : State) (a : RegIdx) :
    ∃ t, exec (.push (regByte a)) s = .next t ∧
      (s.sp.toNat ≤ s.stackLow.toNat → t = s.faultedWith .stackOverflow (zext9 s.sp)) ∧
      (s.stackLow.toNat < s.sp.toNat → t.sp.toNat + 1 = s.sp.toNat ∧ s.stackLow.toNat ≤ t.sp.toNat ∧
        t.runState = s.runState) := by
  obtain h | h := Nat.lt_or_ge s.stackLow.toNat s.sp.toNat
  · refine ⟨_, exec_push_above_limit a h, fun hle => absurd h (Nat.not_lt.mpr hle), fun _ => ?_⟩
    rw [State.pushed_sp, toNat_pushAddr h]
    exact ⟨by omega, by omega, rfl⟩
  · exact ⟨_, exec_push_at_limit a h, fun _ => rfl, fun hlt => absurd hlt (Nat.not_lt.mpr h)⟩

/-- R97: the underflow test keeps the new SP of a POP into another register at or below the high limit. -/
theorem pop_keeps_sp_in_range (s : State) (a : RegIdx) :
    ∃ t, exec (.pop (regByte a)) s = .next t ∧
      (s.stackHigh.toNat ≤ s.sp.toNat → t = s.faultedWith .stackUnderflow (zext9 s.sp)) ∧
      (s.sp.toNat < s.stackHigh.toNat → t.runState = s.runState ∧
        (a ≠ 7 → t.sp.toNat = s.sp.toNat + 1 ∧ t.sp.toNat ≤ s.stackHigh.toNat) ∧
        (a = 7 → t.sp = s.mem.read s.sp.toNat)) := by
  obtain h | h := Nat.lt_or_ge s.sp.toNat s.stackHigh.toNat
  · refine ⟨_, exec_pop_below_limit a h, fun hle => absurd h (Nat.not_lt.mpr hle),
      fun _ => ⟨rfl, fun ha => ?_, fun ha => ?_⟩⟩
    · rw [s.popped_sp ha, toNat_sp_add_one h]
      exact ⟨rfl, h⟩
    · subst ha
      exact s.popped_reg_self 7
  · exact ⟨_, exec_pop_at_limit a h, fun _ => rfl, fun hlt => absurd hlt (Nat.not_lt.mpr h)⟩

/-- Settles O36: each test decides between the raise and an SP one lower or higher, which the test keeps within the
limit. -/
theorem stackBoundsKeepSpInRange : Obligations.StackBoundsKeepSpInRange :=
  fun s a => ⟨push_keeps_sp_in_range s a, pop_keeps_sp_in_range s a⟩

/-! ### A PUSH and then a POP -/

/-- Settles O37: after the PUSH SP is one below the high limit or lower, so the POP passes its test and reads the byte
just stored, and SP - 1 + 1 is SP. -/
theorem pushThenPopRoundTrip : Obligations.PushThenPopRoundTrip := by
  intro s a b hm hlow hhigh
  have hpop : (s.pushed a).sp.toNat < (s.pushed a).stackHigh.toNat := by
    rw [State.pushed_sp, toNat_pushAddr hlow]
    change s.sp.toNat - 1 < s.stackHigh.toNat
    omega
  refine ⟨_, _, exec_push_above_limit a hlow, exec_pop_below_limit b hpop, ?_, fun hb => ?_, rfl, fun r hrb hr7 => ?_⟩
  · rw [State.popped_reg_self, State.pushed_sp, State.pushed_mem]
    exact Memory.read_write_self hm _ _
  · rw [State.popped_sp _ hb, State.pushed_sp]
    exact BitVec.sub_add_cancel s.sp 1#8
  · rw [State.popped_reg_ne _ _ hrb hr7, State.pushed_reg_ne _ _ hr7]

end Sys2Proof.Machine
end

section
/-! PROOFS. The branches (R101 to R103): a jump on a legal register byte writes PC alone, JEQ and JNE by FL = Equal, and
what they do after a CMP. -/

namespace Sys2Proof.Machine

/-! ### The jumps on a legal register byte -/

section
variable (s : State) (a : RegIdx)

theorem exec_jmp : exec (.jmp (regByte a)) s = .next { s with pc := zext9 s.regs[a] } :=
  exec_of_ruleEffect_ok (ruleEffect_jmp a s)

/-- R102: bit E of FL is set in Equal alone, so the test on it is the test on the state. -/
theorem exec_jeq : exec (.jeq (regByte a)) s =
    .next { s with pc := if s.fl = .equal then zext9 s.regs[a] else s.pc + 2#9 } := by
  rw [exec_of_ruleEffect_ok (ruleEffect_jeq a s), e_eq_beq_equal]
  simp only [beq_iff_eq]
  rfl

/-- R103: bit E of FL is clear in the three states other than Equal. -/
theorem exec_jne : exec (.jne (regByte a)) s =
    .next { s with pc := if s.fl = .equal then s.pc + 2#9 else zext9 s.regs[a] } := by
  rw [exec_of_ruleEffect_ok (ruleEffect_jne a s), e_eq_beq_equal]
  simp only [Bool.not_eq_true', beq_eq_false_iff_ne, ite_not]
  rfl

end

/-- Settles O38: on a legal Ra the rule writes nothing and its next PC is Ra's value; the exceptions are those of every
instruction. -/
theorem jmpSetsPcToTheRegister : Obligations.JmpSetsPcToTheRegister :=
  ⟨fun _ => rfl, exec_jmp, fun _ => ⟨raisesOnBadRegister _, faultsPastEnd _⟩⟩

/-- Settles O39: on a legal Ra the rule writes nothing and FL = Equal decides its next PC; the exceptions are those of
every instruction, whatever FL is. -/
theorem jeqJumpsOnlyWhenEqual : Obligations.JeqJumpsOnlyWhenEqual :=
  ⟨fun _ => rfl, exec_jeq, fun _ => ⟨raisesOnBadRegister _, faultsPastEnd _⟩⟩

/-! ### The jumps after a CMP (R103) -/

/-- R95: FL is Equal after a comparison of equal values alone. -/
theorem compareFlags_eq_equal {x y : Byte} : compareFlags x y = .equal ↔ x = y := by
  unfold compareFlags
  split
  case isTrue hxy => exact iff_of_true rfl hxy
  case isFalse hxy => split <;> exact iff_of_false nofun hxy

/-- R95: a CMP leaves the registers as they were, and FL = Equal exactly where the two it compared were equal. -/
theorem regs_fl_of_exec_cmp {s t : State} {a b : RegIdx} (h : exec (.cmp (regByte a) (regByte b)) s = .next t) :
    t.regs = s.regs ∧ (t.fl = .equal ↔ s.regs[a] = s.regs[b]) := by
  cases (exec_of_ruleEffect_ok (ruleEffect_cmp a b s)).symm.trans h
  exact ⟨rfl, compareFlags_eq_equal⟩

/-- Settles O40: on a legal Ra the rule writes nothing and FL = Equal decides its next PC, and a CMP sets FL to Equal
exactly on equal registers; the exceptions are those of every instruction, whatever FL is. -/
theorem jneJumpsUnlessEqual : Obligations.JneJumpsUnlessEqual := by
  refine ⟨fun _ => rfl, exec_jne, fun a b c s t h => ?_, fun _ => ⟨raisesOnBadRegister _, faultsPastEnd _⟩⟩
  obtain ⟨hregs, hfl⟩ := regs_fl_of_exec_cmp h
  constructor
  · simp only [exec_jeq, hregs, hfl]
  · simp only [exec_jne, hregs, hfl, ne_eq, ite_not]

end Sys2Proof.Machine
end

section
/-! PROOFS. HLT (R104): its rule's one write is that of Halted to STATE and its next PC is PC, and Halted is left by no
step (R35). -/

namespace Sys2Proof.Machine

/-- Settles O41: the rule writes STATE alone, a Running step with HLT at PC commits that rule, and a call of step in
Halted answers the state it is given. -/
theorem hltHaltsInPlace : Obligations.HltHaltsInPlace :=
  ⟨rfl, fun s => exec_of_ruleEffect_ok (ruleEffect_hlt s),
    fun _ hr hpc hop => ⟨step_of_hlt hr hpc hop, step_of_not_running nofun⟩⟩

end Sys2Proof.Machine
end

section
/-! PROOFS. The fault a Running step enters is the one the order of R107 gives for the bytes at PC (R105, R109). -/

namespace Sys2Proof.Machine

/-! ### The two ends of a Running step -/

/-- R107, R109: a Running step enters Faulted with the fault of the order, or the order has none and the step leaves
the fault registers. -/
theorem running_step_cases {s t : State} (hr : s.runState = .running) (h : step s = .next t) :
    (∃ f : Raise, s.stepFault = some (f.cause, f.info) ∧ t = takeFault f s) ∨
      (s.stepFault = none ∧ t.runState ≠ .faulted ∧
        t.faultCause = s.faultCause ∧ t.faultPc = s.faultPc ∧ t.faultInfo = s.faultInfo) := by
  obtain ⟨hn, -⟩ | ⟨-, r, hf, rfl⟩ | ⟨-, i, hf, hexec⟩ := step_cases h
  · exact absurd hr hn
  · exact .inl ⟨r, stepFault_of_fetch_error hf, rfl⟩
  · obtain ⟨e, he, rfl⟩ | ⟨f, hraise, rfl⟩ := exec_rule_cases hexec
    · obtain ⟨hcause, hfpc, hinfo, -⟩ := commit_control he
      exact .inr ⟨stepFault_none_of_commit hf he, runState_commit_ne_faulted hr he, hcause, hfpc, hinfo⟩
    · exact .inl ⟨f, stepFault_of_ruleEffect_error hf hraise, rfl⟩

/-- A Running step that ends in Faulted enters it by a raise, which is the fault of the order of R107. -/
theorem raise_of_step_faulted {s t : State} (hr : s.runState = .running) (h : step s = .next t)
    (ht : t.runState = .faulted) : ∃ f : Raise, s.stepFault = some (f.cause, f.info) ∧ t = takeFault f s := by
  obtain hfault | ⟨-, hne, -⟩ := running_step_cases hr h
  · exact hfault
  · exact absurd ht hne

/-- Settles O43: the step answers a state, and of its two ends the one that the order of R107 asks for is left. -/
theorem firstFaultOfThePriorityWins : Obligations.FirstFaultOfThePriorityWins := by
  intro s hr
  obtain ⟨t, h⟩ := step_next s
  obtain ⟨f, hfault, rfl⟩ | ⟨hnone, hne, -⟩ := running_step_cases hr h
  · refine ⟨fun c info hci => ?_, fun hnone => ?_⟩
    · cases hfault.symm.trans hci
      exact h
    · cases hfault.symm.trans hnone
  · refine ⟨fun c info hci => ?_, fun _ => ⟨t, h, hne⟩⟩
    cases hnone.symm.trans hci

/-! ### The rows of R105 over the bytes at PC -/

/-- R105: code 0 is no fault's. -/
theorem cause_ne_noFault (f : Raise) : f.cause ≠ .noFault := by
  cases f <;> simp [Raise.cause]

/-- R79: a register byte is found bad in an instruction with operands, and it is above 7. -/
theorem badCodeByte_eq_some {s : State} {b : Byte} (h : s.badCodeByte = some b) :
    s.codeByte 0 ≠ 0x01#8 ∧ 7 < b.toNat := by
  unfold State.badCodeByte at h
  split at h
  · cases h
  next hz =>
  refine ⟨fun h0 => hz (by simp [h0, opcodesZ]), ?_⟩
  split at h
  · next h1 =>
    cases h
    exact h1
  split at h
  · next h2 =>
    cases h
    exact h2.2
  · cases h

/-- R79: past the register check, the second operand byte of a DIV names a register. -/
theorem exists_regByte_of_div {s : State} (h0 : s.codeByte 0 = 0xA3#8) (hb : s.badCodeByte = none) :
    ∃ r, s.codeByte 2 = regByte r := by
  refine (regByte_or_bad (s.codeByte 2)).resolve_right fun hlt => ?_
  by_cases h1 : 7 < (s.codeByte 1).toNat <;> simp [State.badCodeByte, h0, opcodesZ, opcodesRR, h1, hlt] at hb

/-- R107 items 1 to 5: the check that finds a fault, and the fault it finds. -/
theorem stepFault_eq_some {s : State} {c : FaultCause} {info : Word9} (h : s.stepFault = some (c, info)) :
    (255 < s.pc.toNat ∧ c = .addressOutOfRange ∧ info = s.pc) ∨
      (s.codeByte 0 ∉ legalOpcodes ∧ c = .illegalOpcode ∧ info = zext9 (s.codeByte 0)) ∨
      (s.codeByte 0 ∈ legalOpcodes ∧ 255 < s.pc.toNat + operandCount (s.codeByte 0) ∧
        c = .addressOutOfRange ∧ info = 256#9) ∨
      (s.codeByte 0 ∈ legalOpcodes ∧ ∃ b, s.badCodeByte = some b ∧ c = .invalidRegister ∧ info = zext9 b) ∨
      (s.badCodeByte = none ∧ s.ownFault = some (c, info)) := by
  unfold State.stepFault at h
  split at h
  · next hpc =>
    cases h
    exact .inl ⟨hpc, rfl, rfl⟩
  split at h
  · next hop =>
    cases h
    exact .inr (.inl ⟨hop, rfl, rfl⟩)
  next hop =>
  have hlegal := not_not.mp hop
  split at h
  · next hend =>
    cases h
    exact .inr (.inr (.inl ⟨hlegal, hend, rfl, rfl⟩))
  split at h
  · next b hb =>
    cases h
    exact .inr (.inr (.inr (.inl ⟨hlegal, b, hb, rfl, rfl⟩)))
  · next hb => exact .inr (.inr (.inr (.inr ⟨hb, h⟩)))

/-- R94, R97: the instruction whose own check finds a fault, and the fault it finds. -/
theorem ownFault_eq_some {s : State} {c : FaultCause} {info : Word9} (h : s.ownFault = some (c, info)) :
    (s.codeByte 0 = 0xA3#8 ∧ s.regOfByte (s.codeByte 2) = 0#8 ∧
        c = .divisionByZero ∧ info = zext9 (s.codeByte 2)) ∨
      (s.codeByte 0 = 0x45#8 ∧ s.sp.toNat ≤ s.stackLow.toNat ∧ c = .stackOverflow ∧ info = zext9 s.sp) ∨
      (s.codeByte 0 = 0x46#8 ∧ s.stackHigh.toNat ≤ s.sp.toNat ∧ c = .stackUnderflow ∧ info = zext9 s.sp) := by
  unfold State.ownFault at h
  split at h
  · next hd =>
    cases h
    exact .inl ⟨hd.1, hd.2, rfl, rfl⟩
  split at h
  · next hp =>
    cases h
    exact .inr (.inl ⟨hp.1, hp.2, rfl, rfl⟩)
  split at h
  · next hp =>
    cases h
    exact .inr (.inr ⟨hp.1, hp.2, rfl, rfl⟩)
  · cases h

/-- R36, R109: a step that does not end in Faulted leaves the fault registers. -/
theorem faultRegs_of_step_ne_faulted {s t : State} (h : step s = .next t) (ht : t.runState ≠ .faulted) :
    t.faultCause = s.faultCause ∧ t.faultPc = s.faultPc ∧ t.faultInfo = s.faultInfo := by
  by_cases hr : s.runState = .running
  · obtain ⟨f, -, rfl⟩ | ⟨-, -, hregs⟩ := running_step_cases hr h
    · exact absurd rfl ht
    · exact hregs
  · cases (step_of_not_running hr).symm.trans h
    exact ⟨rfl, rfl, rfl⟩

/-- Settles O42: the codes, UnsupportedOperation's detail and reset are computed, a step that does not end in Faulted
leaves the fault registers, and one that does reports the fault of the order of R107, whose every check is the cause of
a row of R105. -/
theorem faultRegistersFollowTheTable : Obligations.FaultRegistersFollowTheTable := by
  refine ⟨by decide, ⟨rfl, rfl⟩, fun s => ⟨rfl, rfl⟩, fun s t => faultRegs_of_step_ne_faulted,
    fun s t hr hpc h ht => ?_⟩
  obtain ⟨f, hfault, rfl⟩ := raise_of_step_faulted hr h ht
  refine ⟨takeFault_faultPc s f, ?_⟩
  rw [takeFault_faultCause, takeFault_faultInfo]
  obtain ⟨hlt, hc, hi⟩ | ⟨hop, hc, hi⟩ | ⟨hop, hend, hc, hi⟩ | ⟨hop, b, hb, hc, hi⟩ | ⟨hb, hown⟩ :=
    stepFault_eq_some hfault
  · have h256 : s.pc = 256#9 := BitVec.eq_of_toNat_eq (by rw [BitVec.toNat_ofNat]; omega)
    exact .inl ⟨hc, hi.trans h256, .inl h256⟩
  · exact .inr (.inl ⟨hc, hi, hop⟩)
  · exact .inl ⟨hc, hi, .inr ⟨hop, hend⟩⟩
  · obtain ⟨hne, hbad⟩ := badCodeByte_eq_some hb
    exact .inr (.inr (.inl ⟨hc, hop, hne, b, hb, hbad, hi⟩))
  · obtain ⟨h0, hzero, hc, hi⟩ | ⟨h0, hsp, hc, hi⟩ | ⟨h0, hsp, hc, hi⟩ := ownFault_eq_some hown
    · obtain ⟨r, h2⟩ := exists_regByte_of_div h0 hb
      rw [h2, regOfByte_regByte] at hzero
      rw [h2, zext9_regByte] at hi
      exact .inr (.inr (.inr (.inl ⟨hc, h0, r, h2, hzero, hi⟩)))
    · exact .inr (.inr (.inr (.inr (.inl ⟨hc, h0, hsp, hi⟩))))
    · exact .inr (.inr (.inr (.inr (.inr ⟨hc, h0, hsp, hi⟩))))

/-- Settles O44: a Running step ends in Faulted by fault entry, which writes these four fields, and every raise has a
code of its own. -/
theorem faultEntryChangesNothingElse : Obligations.FaultEntryChangesNothingElse := by
  intro s t hr h ht
  obtain ⟨f, -, rfl⟩ := raise_of_step_faulted hr h ht
  exact ⟨rfl, cause_ne_noFault f⟩

end Sys2Proof.Machine
end

section
/-! PROOFS. The invariant of a loaded machine and through a reset (R120, R123, R125). -/

namespace Sys2Proof.Machine

/-- R120, R125: a reset keeps the memory and the limits, and takes everything else from `State.reset`. -/
theorem inv_assertReset {s : State} (hs : s.Inv) : s.assertReset.Inv where
  memWf := hs.memWf
  pcRange := invariantHoldsAtReset.pcRange
  limits := hs.limits
  noFault := invariantHoldsAtReset.noFault
  halted h := by cases h
  faulted h := by cases h

/-- Settles O9: a loaded machine differs from `State.reset` in the memory and the limits alone, and so does a machine
whose reset is asserted. -/
theorem invariantHoldsAtBootAndAfterReset : Obligations.InvariantHoldsAtBootAndAfterReset :=
  ⟨fun _ _ _ _ => inv_of_boot, fun _ => inv_assertReset⟩

end Sys2Proof.Machine
end
